-- ==== Sys2Proof/Word.lean ====
section
/-! DEFINITION. The words of the block: every value the spec gives a width (00_scope.md R6, R8). -/

namespace Sys2Proof

/-- A u8 value: `STATUS`, a bus byte. -/
abbrev Byte := BitVec 8

/-- A u8 pin identifier; 0 to 255 are all legal (20_memory.md R60). -/
abbrev PinId := BitVec 8

/-- A u8 bus identifier; 0 names the platform-default bus (10_state.md R26). -/
abbrev BusId := BitVec 8

/-- A u32 value: a response word, a frequency, a timestamp. -/
abbrev Word := BitVec 32

/-- A raw frame, `FRAME_BITS` = 32 bits wide (00_scope.md R6; 30_encoding.md R70). -/
abbrev Frame := BitVec 32

/-- The bit pattern of an IEEE 754 binary32 value (00_scope.md R9). -/
abbrev F32 := BitVec 32

/-- A u64 command word (30_encoding.md R74). -/
abbrev Command := BitVec 64

end Sys2Proof
end

