-- ==== Sys2Proof/Config.lean ====
section
/-! DEFINITION. What is fixed for a run: the parameters of 00_scope.md R6 and the free values of the environment (R5, R10). -/

namespace Sys2Proof

/-- The binary32 operations of 00_scope.md R9; a NaN result may depend on which one gave it. -/
inductive F32Op where
  | add
  | sub
  | mul
  | div
  deriving DecidableEq, Repr

/-- The parameters that R6 calls arguments and that a register, an event or a command can show.
A state carries them, no step changes them, and a statement over every state holds for every value of them. -/
structure Params where
  /-- `NATIVE_SEEBECK`, the sensor's native linearization coefficient (R6, D9). -/
  nativeSeebeck : F32
  /-- `DEFAULT_SPI_FREQ_HZ`, the reset value of `SPI_FREQ_HZ` (R6, D11). -/
  defaultSpiFreqHz : Word
  /-- `SPI_MODE`, clock polarity and phase of the accelerated transfer (R6, D16).
  DEDUCED: two bits, CPOL and CPHA; the spec gives no width (safe, log 6). -/
  spiMode : BitVec 2
  deriving DecidableEq, Repr

/-- The values that R6 takes where a run names none. -/
def Params.defaults : Params where
  nativeSeebeck := 0x42251AA0#32
  defaultSpiFreqHz := 1000000#32
  spiMode := 0#2

namespace Config

/-- `SENTINEL`, the communication-failure frame (R6). -/
def sentinel : Frame := 0xFFFFFFFF#32

/-- `INT_LSB`, the resolution of the internal reference temperature (R6). -/
def intLsb : ℚ := 1 / 16

/-- `PROBE_LSB`, the resolution of the probe temperature (R6). -/
def probeLsb : ℚ := 1 / 4

/-- `INT_BIAS`, the negative bias of the internal field (R6). -/
def intBias : ℚ := -128

/-- `PROBE_BIAS`, the negative bias of the probe field (R6). -/
def probeBias : ℚ := -2048

/-- `NO_TEMPERATURE`, binary32 -999.0 (R6, D7). -/
def noTemperature : F32 := 0xC479C000#32

/-- `STATUS_NOREAD`, the no-read-yet status code (R6, D6). -/
def statusNoRead : Byte := 0x80#8

/-- `STATUS_NOCOMM`, the communication-failure status code (R6, D6). -/
def statusNoComm : Byte := 0x81#8

/-- `TIME_UNIT`, the unit of `Now()`: the block does not interpret it, so it has no value here and nothing reads it
(R6, D20; UNVERIFIED which unit a platform has, safe, log 16). -/
opaque timeUnit : String

/-- FREE VALUE. What the pin environment answers at the n-th draw of a run whose list of pin answers has ended
(R10; 43_bitclocked_transport.md R146; DESIGN CHOICE, safe, log 2). -/
opaque freePinBit : Nat → BitVec 1

/-- FREE VALUE. What the bus environment answers at the n-th draw of a run whose list of bus answers has ended
(R10; 42_accelerated_transport.md R125; DESIGN CHOICE, safe, log 2). -/
opaque freeBusByte : Nat → Byte

/-- FREE VALUE. What the time source answers at the n-th draw of a run whose list of time answers has ended
(R10; 41_frame_decoder.md R108; DESIGN CHOICE, safe, log 2). -/
opaque freeNow : Nat → Word

/-- FREE VALUE. Sign (bit 22) and payload (bits 21:0) of the quiet NaN that an operation gives on two operands
(44_reader_commands.md R167; 93 I-11; DEDUCED that it depends on nothing else, by R179; unsafe, log 7). -/
opaque nanChoice : F32Op → F32 → F32 → BitVec 23

end Config

end Sys2Proof
end

