-- ==== Sys2Proof/Syntax.lean ====
section
/-! DEFINITION. The commands of the block: one constructor per row of spec/opcode_table.json (30_encoding.md R76). -/

namespace Sys2Proof

/-- A command with its operands as 30_encoding.md R77 assembles them. -/
inductive Instr where
  /-- `INIT.A cs, bus` (44_reader_commands.md R160). -/
  | initA (cs : PinId) (bus : BusId)
  /-- `INIT.B cs, clk, data` (44_reader_commands.md R161). -/
  | initB (cs clk data : PinId)
  /-- `READ` (44_reader_commands.md R163). -/
  | read
  /-- `GETPT` (44_reader_commands.md R166). -/
  | getpt
  /-- `GETIT` (44_reader_commands.md R170). -/
  | getit
  /-- `GETST` (44_reader_commands.md R171). -/
  | getst
  /-- `GETTS` (44_reader_commands.md R172). -/
  | getts
  /-- `SETOFS offset` (44_reader_commands.md R173). -/
  | setofs (offset : F32)
  /-- `SETSBK coeff` (44_reader_commands.md R174). -/
  | setsbk (coeff : F32)
  /-- `SETFRQ hz` (44_reader_commands.md R175). -/
  | setfrq (hz : Word)
  /-- `SETDLY us` (44_reader_commands.md R176). -/
  | setdly (us : BitVec 16)
  deriving DecidableEq, Repr

end Sys2Proof
end

