-- ==== Sys2Proof/WellFormed.lean ====
section
/-! DEFINITION. Which commands are well formed as syntax: the operand widths are in the types of Instr, so the one check left
is that INIT.B names three different lines (44_reader_commands.md R161; 92 D21). -/

namespace Sys2Proof

/-- The three pins of `INIT.B` are pairwise different; every other command is well formed as it stands.
The decoder accepts an ill-formed `INIT.B`, as 30_encoding.md R80 does; the machine refuses it with PIN_CONFLICT
(DESIGN CHOICE, safe, log 11). -/
def Instr.wellFormed : Instr → Bool
  | .initB cs clk data => cs != clk && cs != data && clk != data
  | .initA _ _ => true
  | .read => true
  | .getpt => true
  | .getit => true
  | .getst => true
  | .getts => true
  | .setofs _ => true
  | .setsbk _ => true
  | .setfrq _ => true
  | .setdly _ => true

end Sys2Proof
end

