-- ==== Sys2Proof/Decode.lean ====
section
/-! DEFINITION. The command word (30_encoding.md R74 to R80, R84): its fields, its decoder, its encoder, and the rows of
the opcode table. -/

namespace Sys2Proof

/-- The eleven assigned opcodes (R76). -/
inductive Opcode where
  | initA
  | initB
  | read
  | getpt
  | getit
  | getst
  | getts
  | setofs
  | setsbk
  | setfrq
  | setdly
  deriving DecidableEq, Repr

/-- Why a command word decodes to no command (R78, R79). -/
inductive DecodeError where
  /-- `OPC` is none of the eleven values (R79). -/
  | illegalOpcode
  /-- `OPC` is assigned and a field that must be 0 is not (R78). -/
  | reservedField
  deriving DecidableEq, Repr

/-- `OPC`, bits 63:56 (R74). -/
def fieldOpc (c : Command) : BitVec 8 := c.extractLsb' 56 8

/-- `A`, bits 55:48 (R74). -/
def fieldA (c : Command) : BitVec 8 := c.extractLsb' 48 8

/-- `B`, bits 47:40 (R74). -/
def fieldB (c : Command) : BitVec 8 := c.extractLsb' 40 8

/-- `C`, bits 39:32 (R74). -/
def fieldC (c : Command) : BitVec 8 := c.extractLsb' 32 8

/-- `IMM`, bits 31:0 (R74). -/
def fieldImm (c : Command) : BitVec 32 := c.extractLsb' 0 32

/-- `IMM[31:16]`, which `SETDLY` requires to be 0 (R76). -/
def fieldImmHigh (c : Command) : BitVec 16 := c.extractLsb' 16 16

/-- `IMM[15:0]`, the u16 operand of `SETDLY` (R76, R77). -/
def fieldImmLow (c : Command) : BitVec 16 := c.extractLsb' 0 16

/-- The `OPC` value of each command (R76). -/
def Opcode.byte : Opcode → BitVec 8
  | .initA => 0x10#8
  | .initB => 0x11#8
  | .read => 0x20#8
  | .getpt => 0x30#8
  | .getit => 0x31#8
  | .getst => 0x32#8
  | .getts => 0x33#8
  | .setofs => 0x40#8
  | .setsbk => 0x41#8
  | .setfrq => 0x42#8
  | .setdly => 0x43#8

/-- All assigned opcodes, in the table's order. -/
def Opcode.all : List Opcode :=
  [.initA, .initB, .read, .getpt, .getit, .getst, .getts, .setofs, .setsbk, .setfrq, .setdly]

/-- The command that an `OPC` value names; none for the 245 unassigned values (R79). -/
def opcodeOf (b : BitVec 8) : Option Opcode := Opcode.all.find? (fun o => o.byte == b)

/-- The "must be 0" fields of each row of the opcode map are zero (R76). -/
def reservedZero (o : Opcode) (c : Command) : Bool :=
  match o with
  | .initA => fieldC c == 0#8 && fieldImm c == 0#32
  | .initB => fieldImm c == 0#32
  | .read | .getpt | .getit | .getst | .getts =>
    fieldA c == 0#8 && fieldB c == 0#8 && fieldC c == 0#8 && fieldImm c == 0#32
  | .setofs | .setsbk | .setfrq => fieldA c == 0#8 && fieldB c == 0#8 && fieldC c == 0#8
  | .setdly => fieldA c == 0#8 && fieldB c == 0#8 && fieldC c == 0#8 && fieldImmHigh c == 0#16

/-- Operands taken from a command word, unchanged: none is sign-extended or scaled (R77). -/
def assemble (o : Opcode) (c : Command) : Instr :=
  match o with
  | .initA => .initA (fieldA c) (fieldB c)
  | .initB => .initB (fieldA c) (fieldB c) (fieldC c)
  | .read => .read
  | .getpt => .getpt
  | .getit => .getit
  | .getst => .getst
  | .getts => .getts
  | .setofs => .setofs (fieldImm c)
  | .setsbk => .setsbk (fieldImm c)
  | .setfrq => .setfrq (fieldImm c)
  | .setdly => .setdly (fieldImmLow c)

/-- Decoding, total on any u64: ILLEGAL_OPCODE comes before RESERVED_FIELD (R80; 60_exceptions.md R204). -/
def decode (c : Command) : Except DecodeError Instr :=
  match opcodeOf (fieldOpc c) with
  | none => .error .illegalOpcode
  | some o => if reservedZero o c then .ok (assemble o c) else .error .reservedField

/-- A command word from its five fields (R74). -/
def commandWord (opc a b c : BitVec 8) (imm : BitVec 32) : Command := opc ++ a ++ b ++ c ++ imm

/-- The opcode of a command. -/
def Instr.opcode : Instr → Opcode
  | .initA _ _ => .initA
  | .initB _ _ _ => .initB
  | .read => .read
  | .getpt => .getpt
  | .getit => .getit
  | .getst => .getst
  | .getts => .getts
  | .setofs _ => .setofs
  | .setsbk _ => .setsbk
  | .setfrq _ => .setfrq
  | .setdly _ => .setdly

/-- The command word of each command, operands in their fields (R76, R77, R84). -/
def encode (i : Instr) : Command :=
  let o := i.opcode.byte
  match i with
  | .initA cs bus => commandWord o cs bus 0#8 0#32
  | .initB cs clk data => commandWord o cs clk data 0#32
  | .read | .getpt | .getit | .getst | .getts => commandWord o 0#8 0#8 0#8 0#32
  | .setofs w | .setsbk w | .setfrq w => commandWord o 0#8 0#8 0#8 w
  | .setdly us => commandWord o 0#8 0#8 0#8 (us.setWidth 32)

/-- A row of spec/opcode_table.json: a word selects it when its masked bits are the match value (R80). -/
structure TableRow where
  opcode : Opcode
  pattern : Command
  mask : Command
  deriving DecidableEq, Repr

/-- spec/opcode_table.json's `match` and `mask`, row by row. -/
def opcodeTable : List TableRow :=
  [⟨.initA, 0x1000000000000000#64, 0xFF0000FFFFFFFFFF#64⟩,
   ⟨.initB, 0x1100000000000000#64, 0xFF000000FFFFFFFF#64⟩,
   ⟨.read, 0x2000000000000000#64, 0xFFFFFFFFFFFFFFFF#64⟩,
   ⟨.getpt, 0x3000000000000000#64, 0xFFFFFFFFFFFFFFFF#64⟩,
   ⟨.getit, 0x3100000000000000#64, 0xFFFFFFFFFFFFFFFF#64⟩,
   ⟨.getst, 0x3200000000000000#64, 0xFFFFFFFFFFFFFFFF#64⟩,
   ⟨.getts, 0x3300000000000000#64, 0xFFFFFFFFFFFFFFFF#64⟩,
   ⟨.setofs, 0x4000000000000000#64, 0xFFFFFFFF00000000#64⟩,
   ⟨.setsbk, 0x4100000000000000#64, 0xFFFFFFFF00000000#64⟩,
   ⟨.setfrq, 0x4200000000000000#64, 0xFFFFFFFF00000000#64⟩,
   ⟨.setdly, 0x4300000000000000#64, 0xFFFFFFFFFFFF0000#64⟩]

/-- A word selects a row (R80). -/
def TableRow.selects (r : TableRow) (c : Command) : Bool := c &&& r.mask == r.pattern

/-- The command that the decoder reads from the bits of one table row; a row is one whole 64-bit command word, bit 0 its
least significant bit, so there is no byte order to choose (R54, R74; log 13). -/
def decodeTableWord (nbits w : Nat) : Option Instr :=
  match decode (BitVec.ofNat 64 (w % 2 ^ nbits)) with
  | .ok i => some i
  | .error _ => none

end Sys2Proof
end

