-- ==== Sys2Proof/Machine/State.lean ====
section
/-! DEFINITION. The state of the block (10_state.md R20 to R41), what its host and environment will send it, and reset (70 R220). -/

namespace Sys2Proof.Machine

/-- `LIFECYCLE` (10_state.md R22). -/
inductive Lifecycle where
  | uninit
  | configured
  deriving DecidableEq, Repr

/-- `TRANSPORT` (10_state.md R23). -/
inductive Transport where
  | accel
  | bitclk
  deriving DecidableEq, Repr

/-- A level the block drives on a pin (00_scope.md R10). -/
inductive Level where
  | low
  | high
  deriving DecidableEq, Repr

/-- What `LINE_CS` and `LINE_CLK` record (10_state.md R36). -/
inductive LineLevel where
  | undriven
  | low
  | high
  deriving DecidableEq, Repr

/-- A pin's direction (00_scope.md R10). -/
inductive PinDirection where
  | output
  | input
  deriving DecidableEq, Repr

/-- The bit order of a bus transaction; the block only ever asks for most-significant first (42_accelerated_transport.md R122). -/
inductive BitOrder where
  | msbFirst
  deriving DecidableEq, Repr

/-- An interface event: the primitive, its arguments, and the value drawn where there is one (00_scope.md R10). -/
inductive Event where
  | pinMode (pin : PinId) (direction : PinDirection)
  | pinWrite (pin : PinId) (level : Level)
  | pinRead (pin : PinId) (bit : BitVec 1)
  | delayUs (us : BitVec 16)
  | busBegin (bus : BusId)
  | busBeginTransaction (bus : BusId) (hz : Word) (order : BitOrder) (mode : BitVec 2)
  | busTransfer (bus : BusId) (sent received : Byte)
  | busEndTransaction (bus : BusId)
  deriving DecidableEq, Repr

/-- What the host can do to the block between commands (70_reset_and_hazards.md R234). -/
inductive HostInput where
  /-- One u64 command word at the command port (20_memory.md R51). -/
  | command (c : Command)
  /-- The reset signal, applied between commands (70_reset_and_hazards.md R221). -/
  | reset
  deriving DecidableEq, Repr

/-- Why the machine stops with a fault: never. The block raises no exception and takes no trap
(60_exceptions.md R200), so this type has no constructor, which is safe (log 10). -/
inductive Fault where
  deriving DecidableEq, Repr

/-- Why a command is refused: the closed list of 60_exceptions.md R204. A refused command has no effect and no response (R203). -/
inductive Refusal where
  /-- ILLEGAL_OPCODE, raised by decoding on an unassigned `OPC` (30_encoding.md R79). Safe: the run stops. -/
  | illegalOpcode
  /-- RESERVED_FIELD, raised by decoding on a nonzero "must be 0" field (30_encoding.md R78). Safe: the run stops. -/
  | reservedField
  /-- REINIT, raised by INIT.A and INIT.B on a configured block (44_reader_commands.md R162). Safe: the run stops. -/
  | reinit
  /-- NOT_INITIALIZED, raised by READ on an uninitialized block (44_reader_commands.md R163). Safe: the run stops. -/
  | notInitialized
  /-- PIN_CONFLICT, raised by INIT.B when two of its pins are equal (44_reader_commands.md R161). Safe: the run stops. -/
  | pinConflict
  /-- Raised by no command of this model: every command has its meaning. Safe. -/
  | notModelled (mnemonic : String)
  deriving DecidableEq, Repr

/-- The whole state. The first eighteen fields are the registers of 10_state.md R37; `params` are the arguments of
00_scope.md R6; `responses` and `refusalMark` are what the host has got back; the last five are the MODEL's own fields,
which hold the other agents of 00_scope.md R5 as plain data. -/
structure State where
  /-- `LIFECYCLE` (R22). -/
  lifecycle : Lifecycle
  /-- `TRANSPORT` (R23). -/
  transport : Transport
  /-- `PIN_CS` (R24). -/
  pinCs : PinId
  /-- `PIN_CLK` (R25). -/
  pinClk : PinId
  /-- `PIN_DATA` (R25). -/
  pinData : PinId
  /-- `BUS_ID` (R26). -/
  busId : BusId
  /-- `SPI_FREQ_HZ` (R27). -/
  spiFreqHz : Word
  /-- `BIT_DELAY_US`, the per-bit delay D (R28; 90_conflicts.md C1). -/
  bitDelayUs : BitVec 16
  /-- `CAL_OFFSET` (R29). -/
  calOffset : F32
  /-- `SEEBECK` (R30). -/
  seebeck : F32
  /-- `STATUS` (R31). -/
  status : Byte
  /-- `HAS_DATA` (R32). -/
  hasData : Bool
  /-- `INT_CODE` (R33). -/
  intCode : BitVec 12
  /-- `PROBE_CODE` (R34). -/
  probeCode : BitVec 14
  /-- `LAST_READ_TS` (R35). -/
  lastReadTs : Word
  /-- `LINE_CS` (R36). -/
  lineCs : LineLevel
  /-- `LINE_CLK` (R36). -/
  lineClk : LineLevel
  /-- `TRACE`, oldest event first (00_scope.md R11). -/
  trace : List Event
  /-- The parameters; no step changes them (00_scope.md R6). -/
  params : Params
  /-- The response words returned to the host, oldest first (30_encoding.md R75; 70 R233; DESIGN CHOICE, safe, log 4). -/
  responses : List Word
  /-- The refusal mark: the first refusal of the run, kept for the rest of it (60_exceptions.md R203; DESIGN CHOICE, safe, log 3). -/
  refusalMark : Option Refusal
  /-- MODEL's own: what the host will send, first input first (00_scope.md R4; DESIGN CHOICE, safe, log 1). -/
  hostQueue : List HostInput
  /-- MODEL's own: the environment's coming answers to `PinRead` (00_scope.md R10; DESIGN CHOICE, safe, log 2). -/
  pinAnswers : List (BitVec 1)
  /-- MODEL's own: the environment's coming answers to `BusTransfer` (00_scope.md R10; DESIGN CHOICE, safe, log 2). -/
  busAnswers : List Byte
  /-- MODEL's own: the time source's coming answers to `Now()` (00_scope.md R10; DESIGN CHOICE, safe, log 2). -/
  nowAnswers : List Word
  /-- MODEL's own: how many draws the run has made; it numbers the free values (DESIGN CHOICE, safe, log 2). -/
  draws : Nat
  deriving DecidableEq, Repr

/-- Right after reset, for given parameters: the values of 10_state.md R37 and 70_reset_and_hazards.md R220; the host and the
environment have nothing listed (log 1, log 2). -/
def State.resetWith (p : Params) : State where
  lifecycle := .uninit
  transport := .accel
  pinCs := 0x00#8
  pinClk := 0x00#8
  pinData := 0x00#8
  busId := 0x00#8
  spiFreqHz := p.defaultSpiFreqHz
  bitDelayUs := 0#16
  calOffset := 0x00000000#32
  seebeck := p.nativeSeebeck
  status := Config.statusNoRead
  hasData := false
  intCode := 0x000#12
  probeCode := 0x0000#14
  lastReadTs := 0x00000000#32
  lineCs := .undriven
  lineClk := .undriven
  trace := []
  params := p
  responses := []
  refusalMark := none
  hostQueue := []
  pinAnswers := []
  busAnswers := []
  nowAnswers := []
  draws := 0

/-- Right after reset, with the parameters that 00_scope.md R6 takes. -/
def State.reset : State := State.resetWith Params.defaults

end Sys2Proof.Machine
end

