-- ==== Sys2Proof/Machine/Ops.lean ====
section
/-! DEFINITION. The named operations over State: the interface primitives of 00_scope.md R10, the host port, and reset.
There is no memory operation (20_memory.md R50) and no exception entry or return (60_exceptions.md R200, R206), because the
block has neither memory nor exceptions. -/

namespace Sys2Proof.Machine

/-- Appends one event to `TRACE` (00_scope.md R10, R11). -/
def State.emit (s : State) (e : Event) : State := { s with trace := s.trace ++ [e] }

/-- The line level that driving a pin to `l` leaves (10_state.md R36). -/
def Level.line : Level → LineLevel
  | .low => .low
  | .high => .high

/-- `PinMode(p, m)` (R10). -/
def State.pinMode (s : State) (p : PinId) (d : PinDirection) : State := s.emit (.pinMode p d)

/-- `PinWrite` on the chip-select line: it updates `LINE_CS` (10_state.md R36). The line is told by its role, so that `INIT.A 0`
is no write of the clock line whose identifier still holds its reset value 0 (DEDUCED from R25, unsafe, log 8). -/
def State.driveCs (s : State) (p : PinId) (l : Level) : State :=
  { s.emit (.pinWrite p l) with lineCs := l.line }

/-- `PinWrite` on the clock line: it updates `LINE_CLK` (10_state.md R36; log 8). -/
def State.driveClk (s : State) (p : PinId) (l : Level) : State :=
  { s.emit (.pinWrite p l) with lineClk := l.line }

/-- `if n > 0 then DelayUs(n)`: a zero delay emits no event (43_bitclocked_transport.md R140, R143). -/
def State.delayUs (s : State) (n : BitVec 16) : State :=
  if n = 0#16 then s else s.emit (.delayUs n)

/-- The environment's k-th coming answer to `PinRead`: the listed one, or a free bit (R10, R58; log 2). -/
def State.pinAnswerAt (s : State) (k : Nat) : BitVec 1 :=
  s.pinAnswers[k]?.getD (Config.freePinBit (s.draws + k))

/-- The environment's k-th coming answer to `BusTransfer`: the listed one, or a free byte (R10, R58; log 2). -/
def State.busAnswerAt (s : State) (k : Nat) : Byte :=
  s.busAnswers[k]?.getD (Config.freeBusByte (s.draws + k))

/-- The time source's next answer to `Now()`: the listed one, or a free word (R10; 60_exceptions.md R208; log 2). -/
def State.nowAnswer (s : State) : Word :=
  s.nowAnswers[0]?.getD (Config.freeNow s.draws)

/-- `PinRead(p) -> b`: draws the bit and records it (R10; 20_memory.md R55). -/
def State.pinRead (s : State) (p : PinId) : BitVec 1 × State :=
  (s.pinAnswerAt 0,
    { s with pinAnswers := s.pinAnswers.tail, draws := s.draws + 1 }.emit (.pinRead p (s.pinAnswerAt 0)))

/-- `BusBegin(bus)` (R10). -/
def State.busBegin (s : State) (bus : BusId) : State := s.emit (.busBegin bus)

/-- `BusBeginTransaction(bus, hz, MSBFIRST, mode)` (R10; 42_accelerated_transport.md R122). -/
def State.busBeginTransaction (s : State) (bus : BusId) (hz : Word) (mode : BitVec 2) : State :=
  s.emit (.busBeginTransaction bus hz .msbFirst mode)

/-- `BusTransfer(bus, tx) -> rx`: draws the byte and records both (R10; 20_memory.md R56). -/
def State.busTransfer (s : State) (bus : BusId) (sent : Byte) : Byte × State :=
  (s.busAnswerAt 0,
    { s with busAnswers := s.busAnswers.tail, draws := s.draws + 1 }.emit (.busTransfer bus sent (s.busAnswerAt 0)))

/-- `BusEndTransaction(bus)` (R10). -/
def State.busEndTransaction (s : State) (bus : BusId) : State := s.emit (.busEndTransaction bus)

/-- `Now() -> t`: draws the timestamp; it emits no event (R10; 90_conflicts.md C10). -/
def State.now (s : State) : Word × State :=
  (s.nowAnswer, { s with nowAnswers := s.nowAnswers.tail, draws := s.draws + 1 })

/-- `respond(v)`: returns the response word to the host; it emits no event (R10; 30_encoding.md R75). -/
def State.respond (s : State) (v : Word) : State := { s with responses := s.responses ++ [v] }

/-- The reset signal: every register of 10_state.md R37 takes its reset value and no event is emitted (70 R220). What lies
outside the block stays: the parameters, the host's record and plan, the environment (DEDUCED, safe, log 9). -/
def State.applyReset (s : State) : State :=
  { State.resetWith s.params with
    responses := s.responses
    refusalMark := s.refusalMark
    hostQueue := s.hostQueue
    pinAnswers := s.pinAnswers
    busAnswers := s.busAnswers
    nowAnswers := s.nowAnswers
    draws := s.draws }

/-- The host's next input, and the state with it taken from the port; none when the host has nothing to send (R4). -/
def nextInput (s : State) : Option (HostInput × State) :=
  match s.hostQueue with
  | [] => none
  | i :: rest => some (i, { s with hostQueue := rest })

/-- The refusal that a word without a meaning gets (30_encoding.md R78, R79). -/
def refusalOf : DecodeError → Refusal
  | .illegalOpcode => .illegalOpcode
  | .reservedField => .reservedField

/-- The host puts one command word at the port, before everything else it will send. -/
def State.presentCommand (s : State) (c : Command) : State :=
  { s with hostQueue := .command c :: s.hostQueue }

end Sys2Proof.Machine
end

