-- ==== Sys2Proof/Machine/Initialize.lean ====
section
/-! DEFINITION. The initialize family: INIT.A and INIT.B (44_reader_commands.md R160 to R162). -/

namespace Sys2Proof.Machine

/-- Two of the three pins of INIT.B are equal (R161). -/
def pinConflict (cs clk data : PinId) : Bool := cs == clk || cs == data || clk == data

/-- `INIT.A cs, bus` (R160): refused with REINIT on a configured block (R162). -/
def execInitA (cs : PinId) (bus : BusId) (s : State) : Host.Outcome State Fault Refusal :=
  match s.lifecycle with
  | .configured => .refused .reinit
  | .uninit =>
    let t := ((s.pinMode cs .output).driveCs cs .high).busBegin bus
    .next ({ t with pinCs := cs, busId := bus, transport := .accel, lifecycle := .configured }.respond 0x00000000#32)

/-- `INIT.B cs, clk, data` (R161): REINIT is tested first, then PIN_CONFLICT (60_exceptions.md R204). -/
def execInitB (cs clk data : PinId) (s : State) : Host.Outcome State Fault Refusal :=
  match s.lifecycle with
  | .configured => .refused .reinit
  | .uninit =>
    if pinConflict cs clk data then .refused .pinConflict
    else
      let t := ((((s.pinMode cs .output).driveCs cs .high).pinMode clk .output).driveClk clk .low).pinMode data .input
      .next ({ t with
        pinCs := cs, pinClk := clk, pinData := data, transport := .bitclk, lifecycle := .configured }.respond 0x00000000#32)

end Sys2Proof.Machine
end

