-- ==== Sys2Proof/Machine/F32.lean ====
section
/-! DEFINITION. IEEE 754 binary32 (00_scope.md R9): each operation converts its operands to exact rationals, computes
exactly, and rounds once, to nearest with ties to even. -/

namespace Sys2Proof.Machine

/-- The sign bit. -/
def f32Sign (x : F32) : Bool := x.msb

/-- The biased exponent, bits 30:23. -/
def f32Exponent (x : F32) : Nat := (x.extractLsb' 23 8).toNat

/-- The fraction, bits 22:0. -/
def f32Fraction (x : F32) : Nat := (x.extractLsb' 0 23).toNat

/-- A NaN: exponent all ones, fraction not zero. -/
def f32IsNaN (x : F32) : Bool := f32Exponent x == 255 && f32Fraction x != 0

/-- An infinity: exponent all ones, fraction zero. -/
def f32IsInf (x : F32) : Bool := f32Exponent x == 255 && f32Fraction x == 0

/-- Neither a NaN nor an infinity. -/
def f32IsFinite (x : F32) : Bool := f32Exponent x != 255

/-- Plus or minus zero. -/
def f32IsZero (x : F32) : Bool := f32Exponent x == 0 && f32Fraction x == 0

/-- The integer significand of a finite value, the hidden bit included. -/
def f32Significand (x : F32) : Nat :=
  if f32Exponent x = 0 then f32Fraction x else 2 ^ 23 + f32Fraction x

/-- The power of two that the significand counts; subnormals share the least one. -/
def f32Quantum (x : F32) : ℤ := (max (f32Exponent x) 1 : ℕ) - 150

/-- The rational that a finite value stands for. -/
def f32Value (x : F32) : ℚ :=
  (if f32Sign x then -1 else 1) * (f32Significand x : ℚ) * (2 : ℚ) ^ f32Quantum x

/-- The integer k with 2^k ≤ q < 2^(k+1), for positive q. -/
def floorLog2 (q : ℚ) : ℤ :=
  let k : ℤ := (Nat.log2 q.num.natAbs : ℤ) - (Nat.log2 q.den : ℤ)
  if (2 : ℚ) ^ k ≤ q then k else k - 1

/-- The nearest integer to a nonnegative rational, ties to even. -/
def roundHalfEven (q : ℚ) : Nat :=
  let f := q.num.natAbs / q.den
  let r := q - f
  if r < 1 / 2 then f else if 1 / 2 < r then f + 1 else if f % 2 = 0 then f else f + 1

/-- Exponent and fraction bits of the binary32 nearest to a positive rational; too large a value becomes infinity. -/
def f32MagnitudeBits (q : ℚ) : BitVec 31 :=
  let g : ℤ := max (-149) (floorLog2 q - 23)
  let bits := (g + 149).toNat * 2 ^ 23 + roundHalfEven (q / (2 : ℚ) ^ g)
  if 0x7F800000 ≤ bits then 0x7F800000#31 else BitVec.ofNat 31 bits

/-- A binary32 from its sign and its other 31 bits. -/
def f32OfParts (negative : Bool) (magnitude : BitVec 31) : F32 := BitVec.ofBool negative ++ magnitude

/-- Rounds a rational to binary32, to nearest with ties to even; an exact zero takes the given sign. -/
def f32Round (zeroSign : Bool) (q : ℚ) : F32 :=
  if q = 0 then f32OfParts zeroSign 0#31 else f32OfParts (decide (q < 0)) (f32MagnitudeBits |q|)

/-- `f32_exact(q)` (R9): the binary32 equal to `q`. The block uses it only where there is one (41_frame_decoder.md R107);
elsewhere it would round (DESIGN CHOICE, safe, log 15). -/
def f32Exact (q : ℚ) : F32 := f32Round false q

/-- Infinity of the given sign. -/
def f32Infinity (negative : Bool) : F32 := f32OfParts negative 0x7F800000#31

/-- Zero of the given sign. -/
def f32Zero (negative : Bool) : F32 := f32OfParts negative 0#31

/-- The value with its sign bit flipped. -/
def f32Neg (x : F32) : F32 := x ^^^ 0x80000000#32

/-- A quiet NaN from its sign (bit 22) and payload (bits 21:0): exponent all ones, top fraction bit 1. -/
def f32QuietNaN (k : BitVec 23) : F32 := k.extractLsb' 22 1 ++ 0xFF#8 ++ 1#1 ++ k.extractLsb' 0 22

/-- The NaN that an operation gives on its operands: quiet, its sign and payload FREE (44 R167; 93 I-11; log 7). -/
def f32NaN (op : F32Op) (a b : F32) : F32 := f32QuietNaN (Config.nanChoice op a b)

/-- The finite or infinite sum of two operands, neither a NaN nor infinities of opposite sign. -/
def f32Sum (a b : F32) : F32 :=
  if f32IsInf a then a
  else if f32IsInf b then b
  else f32Round (f32Sign a && f32Sign b) (f32Value a + f32Value b)

/-- `f32_add` (R9). -/
def f32Add (a b : F32) : F32 :=
  if f32IsNaN a || f32IsNaN b || (f32IsInf a && f32IsInf b && f32Sign a != f32Sign b) then f32NaN .add a b
  else f32Sum a b

/-- `f32_sub` (R9). -/
def f32Sub (a b : F32) : F32 :=
  if f32IsNaN a || f32IsNaN b || (f32IsInf a && f32IsInf b && f32Sign a == f32Sign b) then f32NaN .sub a b
  else f32Sum a (f32Neg b)

/-- `f32_mul` (R9). -/
def f32Mul (a b : F32) : F32 :=
  let negative := f32Sign a ^^ f32Sign b
  if f32IsNaN a || f32IsNaN b || (f32IsInf a && f32IsZero b) || (f32IsZero a && f32IsInf b) then f32NaN .mul a b
  else if f32IsInf a || f32IsInf b then f32Infinity negative
  else f32Round negative (f32Value a * f32Value b)

/-- `f32_div` (R9): a nonzero finite value over zero is an infinity (44_reader_commands.md R168). -/
def f32Div (a b : F32) : F32 :=
  let negative := f32Sign a ^^ f32Sign b
  if f32IsNaN a || f32IsNaN b || (f32IsInf a && f32IsInf b) || (f32IsZero a && f32IsZero b) then f32NaN .div a b
  else if f32IsInf a || f32IsZero b then f32Infinity negative
  else if f32IsInf b then f32Zero negative
  else f32Round negative (f32Value a / f32Value b)

/-- `f32_eq` (R9): false when either operand is a NaN, true for zeros of either sign. -/
def f32Eq (a b : F32) : Bool :=
  !f32IsNaN a && !f32IsNaN b && (a == b || (f32IsZero a && f32IsZero b))

end Sys2Proof.Machine
end

