-- ==== Sys2Proof/Machine/Operands.lean ====
section
/-! DEFINITION. The operands of a raw frame (30_encoding.md R70, R71) and the temperatures its codes stand for
(41_frame_decoder.md R104, R105), with the frame encoder of R109. A command's operands are in Decode.lean (R77). -/

namespace Sys2Proof.Machine

/-- `STAT`, frame bits 2:0 (R70). -/
def frameStat (w : Frame) : BitVec 3 := w.extractLsb' 0 3

/-- `RSV3`, frame bit 3, accepted with any value and ignored (R72). -/
def frameRsv3 (w : Frame) : BitVec 1 := w.extractLsb' 3 1

/-- `IMAG`, frame bits 14:4 (R70). -/
def frameImag (w : Frame) : BitVec 11 := w.extractLsb' 4 11

/-- `ISIGN`, frame bit 15 (R70). -/
def frameIsign (w : Frame) : BitVec 1 := w.extractLsb' 15 1

/-- `FAULT`, frame bit 16, ignored (R72). -/
def frameFault (w : Frame) : BitVec 1 := w.extractLsb' 16 1

/-- `RSV17`, frame bit 17, accepted with any value and ignored (R72). -/
def frameRsv17 (w : Frame) : BitVec 1 := w.extractLsb' 17 1

/-- `PMAG`, frame bits 30:18 (R70). -/
def framePmag (w : Frame) : BitVec 13 := w.extractLsb' 18 13

/-- `PSIGN`, frame bit 31 (R70). -/
def framePsign (w : Frame) : BitVec 1 := w.extractLsb' 31 1

/-- The code that `INT_CODE` caches, frame bits 15:4 (R71). -/
def frameIntCode (w : Frame) : BitVec 12 := w.extractLsb' 4 12

/-- The code that `PROBE_CODE` caches, frame bits 31:18 (R71). -/
def frameProbeCode (w : Frame) : BitVec 14 := w.extractLsb' 18 14

/-- `int_temp(k)`, an exact rational: bias plus magnitude when the sign bit is set (41_frame_decoder.md R104). -/
def intTemp (k : BitVec 12) : ℚ :=
  let raw : ℚ := ((k.extractLsb' 0 11).toNat : ℚ) * Config.intLsb
  if k.msb then Config.intBias + raw else raw

/-- `probe_temp(k)`, an exact rational (41_frame_decoder.md R105). -/
def probeTemp (k : BitVec 14) : ℚ :=
  let raw : ℚ := ((k.extractLsb' 0 13).toNat : ℚ) * Config.probeLsb
  if k.msb then Config.probeBias + raw else raw

/-- `encode(s, i, p)` of 41_frame_decoder.md R109, the two temperatures given on their grids, as counts of 1/16 and of 1/4
degree; the remainders are the non-negative ones. -/
def encodeFrame (stat : BitVec 3) (sixteenths quarters : ℤ) : Frame :=
  (BitVec.ofInt 14 quarters).setWidth 32 <<< 18 ||| (BitVec.ofInt 12 sixteenths).setWidth 32 <<< 4 ||| stat.setWidth 32

end Sys2Proof.Machine
end

