-- ==== Sys2Proof/Machine/Flags.lean ====
section
/-! DEFINITION. The status: what a frame makes of it, how it is returned, and the reader states it spells out. -/

namespace Sys2Proof.Machine

/-- The frame means communication failure; the test is on all 32 bits (41_frame_decoder.md R101). -/
def isSentinel (w : Frame) : Bool := w == Config.sentinel

/-- The `STATUS` that a frame leaves: `STATUS_NOCOMM` for the sentinel, else `zext8(w[2:0])`
(41_frame_decoder.md R101, R102; 60_exceptions.md R201). -/
def frameStatus (w : Frame) : Byte :=
  if isSentinel w then Config.statusNoComm else (frameStat w).setWidth 8

/-- `zext32(STATUS)`, what `READ` returns (44_reader_commands.md R163). -/
def statusWord (status : Byte) : Word := status.setWidth 32

/-- `zext32({HAS_DATA, STATUS})`, what `GETST` returns (44_reader_commands.md R171; 90_conflicts.md C9). -/
def statusReport (hasData : Bool) (status : Byte) : Word := (BitVec.ofBool hasData ++ status).setWidth 32

/-- The reader states of the source's state machine, with the failed first read that it does not name (10_state.md R38). -/
inductive ReaderState where
  | uninitialized
  | configuredNoReadYet
  | configuredFailedFirstRead
  | configuredHasData
  | staleData
  deriving DecidableEq, Repr

/-- How the registers spell the reader state (10_state.md R38). -/
def readerState (s : State) : ReaderState :=
  match s.lifecycle with
  | .uninit => .uninitialized
  | .configured =>
    if s.hasData then
      if s.status = Config.statusNoComm then .staleData else .configuredHasData
    else
      if s.status = Config.statusNoComm then .configuredFailedFirstRead else .configuredNoReadYet

end Sys2Proof.Machine
end

