-- ==== Sys2Proof/Machine/Query.lean ====
section
/-! DEFINITION. The queries: GETPT, GETIT, GETST, GETTS (44_reader_commands.md R166 to R172). They write no register and emit
no event (R179). -/

namespace Sys2Proof.Machine

/-- The fast path: the exact probe temperature plus the calibration offset, rounded once (R167). -/
def fastPath (s : State) : F32 := f32Add (f32Exact (probeTemp s.probeCode)) s.calOffset

/-- The slow path: the implied voltage `NATIVE_SEEBECK * (p - i)` over the coefficient, plus the internal temperature, plus the
offset, rounded at every operation (R168; 92 D13). -/
def slowPath (s : State) : F32 :=
  let p := f32Exact (probeTemp s.probeCode)
  let i := f32Exact (intTemp s.intCode)
  let v := f32Mul s.params.nativeSeebeck (f32Sub p i)
  f32Add (f32Add (f32Div v s.seebeck) i) s.calOffset

/-- What `GETPT` returns (R166). -/
def probeReading (s : State) : F32 :=
  if s.hasData then
    if f32Eq s.seebeck s.params.nativeSeebeck then fastPath s else slowPath s
  else Config.noTemperature

/-- What `GETIT` returns: no offset and no coefficient is applied (R169, R170). -/
def internalReading (s : State) : F32 :=
  if s.hasData then f32Exact (intTemp s.intCode) else Config.noTemperature

/-- `GETPT` (R166). -/
def execGetpt (s : State) : Host.Outcome State Fault Refusal := .next (s.respond (probeReading s))

/-- `GETIT` (R170). -/
def execGetit (s : State) : Host.Outcome State Fault Refusal := .next (s.respond (internalReading s))

/-- `GETST` (R171). -/
def execGetst (s : State) : Host.Outcome State Fault Refusal := .next (s.respond (statusReport s.hasData s.status))

/-- `GETTS` (R172). -/
def execGetts (s : State) : Host.Outcome State Fault Refusal := .next (s.respond s.lastReadTs)

end Sys2Proof.Machine
end

