-- ==== Sys2Proof/Machine/Decoder.lean ====
section
/-! DEFINITION. The Frame Decoder: the micro-operation DECODE (41_frame_decoder.md R100). -/

namespace Sys2Proof.Machine

/-- A frame other than the sentinel: the timestamp is drawn once, then every cached field is written, whatever the status bits
and the reserved bits are (R100, R102, R103, R108). -/
def cacheFrame (w : Frame) (s : State) : State :=
  { s.now.2 with
    status := frameStatus w
    intCode := frameIntCode w
    probeCode := frameProbeCode w
    hasData := true
    lastReadTs := s.now.1 }

/-- `DECODE(w)` (R100): the sentinel writes `STATUS` only and draws no timestamp (R101). -/
def decodeFrame (w : Frame) (s : State) : State :=
  if isSentinel w then { s with status := frameStatus w } else cacheFrame w s

end Sys2Proof.Machine
end

