-- ==== Sys2Proof/Machine/Transport.lean ====
section
/-! DEFINITION. The two transports: the micro-operations XFER.A (42_accelerated_transport.md R120) and XFER.B
(43_bitclocked_transport.md R140). -/

namespace Sys2Proof.Machine

/-- The byte loop of XFER.A: each transfer sends 0x00 and shifts the received byte in below the earlier ones (R120, R123, R124). -/
def xferABytes : Nat → Frame → State → Frame × State
  | 0, w, s => (w, s)
  | n + 1, w, s =>
    let r := s.busTransfer s.busId 0x00#8
    xferABytes n ((w <<< 8) ||| r.1.setWidth 32) r.2

/-- `XFER.A()` (R120): chip-select is driven inside the transaction bracket (R121). -/
def xferA (s : State) : Frame × State :=
  let opened := (s.busBeginTransaction s.busId s.spiFreqHz s.params.spiMode).driveCs s.pinCs .low
  let r := xferABytes 4 0x00000000#32 opened
  (r.1, (r.2.driveCs r.2.pinCs .high).busEndTransaction r.2.busId)

/-- `dHigh`, floor(D/2), waited after the clock rises (R143). -/
def delayHigh (d : BitVec 16) : BitVec 16 := d >>> 1

/-- `dLow`, D minus `dHigh`, waited before the sample (R143). -/
def delayLow (d : BitVec 16) : BitVec 16 := d - delayHigh d

/-- One bit of XFER.B: clock low, first half-delay, sample, clock high, second half-delay (R142). -/
def xferBBit (s : State) : BitVec 1 × State :=
  let r := ((s.driveClk s.pinClk .low).delayUs (delayLow s.bitDelayUs)).pinRead s.pinData
  (r.1, (r.2.driveClk r.2.pinClk .high).delayUs (delayHigh r.2.bitDelayUs))

/-- The bit loop of XFER.B: each sample is shifted in below the earlier ones (R144). -/
def xferBBits : Nat → Frame → State → Frame × State
  | 0, w, s => (w, s)
  | n + 1, w, s =>
    let r := xferBBit s
    xferBBits n ((w <<< 1) ||| r.1.setWidth 32) r.2

/-- `XFER.B()` (R140): chip-select is low around the 32 bits (R141). -/
def xferB (s : State) : Frame × State :=
  let r := xferBBits 32 0x00000000#32 (s.driveCs s.pinCs .low)
  (r.1, r.2.driveCs r.2.pinCs .high)

/-- The one transfer of a READ, by the transport selected at initialization (44_reader_commands.md R163). -/
def transfer (s : State) : Frame × State :=
  match s.transport with
  | .accel => xferA s
  | .bitclk => xferB s

end Sys2Proof.Machine
end

