-- ==== Sys2Proof/Machine/Read.lean ====
section
/-! DEFINITION. The READ command (44_reader_commands.md R163 to R165). -/

namespace Sys2Proof.Machine

/-- One transfer, one decode, no retry: the state that a READ of a configured block leaves before it responds (R163, R164). -/
def readFrame (s : State) : State := decodeFrame (transfer s).1 (transfer s).2

/-- `READ` (R163): it responds the `STATUS` it leaves (R165), and is refused on an uninitialized block. -/
def execRead (s : State) : Host.Outcome State Fault Refusal :=
  match s.lifecycle with
  | .uninit => .refused .notInitialized
  | .configured =>
    let t := readFrame s
    .next (t.respond (statusWord t.status))

end Sys2Proof.Machine
end

