-- ==== Sys2Proof/Machine/Setter.lean ====
section
/-! DEFINITION. The setters: SETOFS, SETSBK, SETFRQ, SETDLY (44_reader_commands.md R173 to R176). Each stores its operand
unchanged, whatever it is, in every lifecycle state and under either transport (92 D24). -/

namespace Sys2Proof.Machine

/-- `SETOFS offset` (R173). -/
def execSetofs (offset : F32) (s : State) : Host.Outcome State Fault Refusal :=
  .next ({ s with calOffset := offset }.respond 0x00000000#32)

/-- `SETSBK coeff` (R174). -/
def execSetsbk (coeff : F32) (s : State) : Host.Outcome State Fault Refusal :=
  .next ({ s with seebeck := coeff }.respond 0x00000000#32)

/-- `SETFRQ hz` (R175). -/
def execSetfrq (hz : Word) (s : State) : Host.Outcome State Fault Refusal :=
  .next ({ s with spiFreqHz := hz }.respond 0x00000000#32)

/-- `SETDLY us` (R176). -/
def execSetdly (us : BitVec 16) (s : State) : Host.Outcome State Fault Refusal :=
  .next ({ s with bitDelayUs := us }.respond 0x00000000#32)

end Sys2Proof.Machine
end

