-- ==== Sys2Proof/Machine/Dispatch.lean ====
section
/-! DEFINITION. The dispatch: one arm per command, each a direct call of its meaning. -/

namespace Sys2Proof.Machine

def exec (i : Instr) (s : State) : Host.Outcome State Fault Refusal :=
  match i with
  | .initA cs bus => Sys2Proof.Machine.execInitA cs bus s
  | .initB cs clk data => Sys2Proof.Machine.execInitB cs clk data s
  | .read => Sys2Proof.Machine.execRead s
  | .getpt => Sys2Proof.Machine.execGetpt s
  | .getit => Sys2Proof.Machine.execGetit s
  | .getst => Sys2Proof.Machine.execGetst s
  | .getts => Sys2Proof.Machine.execGetts s
  | .setofs offset => Sys2Proof.Machine.execSetofs offset s
  | .setsbk coeff => Sys2Proof.Machine.execSetsbk coeff s
  | .setfrq hz => Sys2Proof.Machine.execSetfrq hz s
  | .setdly us => Sys2Proof.Machine.execSetdly us s

end Sys2Proof.Machine
end

