-- ==== Sys2Proof/Machine/Step.lean ====
section
/-! DEFINITION. One step: the host's next input, taken at the command port (00_scope.md R4; 70_reset_and_hazards.md R234). -/

namespace Sys2Proof.Machine

/-- The block takes the host's next input. A command word is decoded and executed, or refused by name (30_encoding.md R80;
60_exceptions.md R203); a reset is applied (70 R220); with nothing to take the block is idle and holds all its state
(60_exceptions.md R212; DEDUCED that this is a step, safe, log 1). -/
def step (s : State) : Host.Outcome State Fault Refusal :=
  match nextInput s with
  | none => .next s
  | some (.reset, t) => .next t.applyReset
  | some (.command c, t) =>
    match decode c with
    | .error e => .refused (refusalOf e)
    | .ok i => exec i t

/-- The state with one command word presented, which the very next step takes (log 1, log 13). -/
def State.withFetchWord (s : State) (nbits w : Nat) : State :=
  s.presentCommand (BitVec.ofNat 64 (w % 2 ^ nbits))

end Sys2Proof.Machine
end

