-- ==== Sys2Proof/Machine/Asm.lean ====
section
/-! DEFINITION. The assembler of 30_encoding.md R82 and R83: one command per line of text, and the pseudo-instructions. It is
the host's notation; the block sees only the command words it gives. -/

namespace Sys2Proof.Machine

/-- What one line of assembly stands for. -/
inductive AsmLine where
  /-- Nothing but blanks and a comment. -/
  | blank
  /-- One command word. -/
  | word (c : Command)
  /-- Not a line of the syntax of R82 and R83. -/
  | error
  deriving DecidableEq, Repr

/-- The pseudo-instructions (R83). -/
inductive Pseudo where
  /-- `INIT cs`. -/
  | initDefaultBus (cs : PinId)
  /-- `INIT cs, clk, data`. -/
  | initClocked (cs clk data : PinId)
  /-- `CLROFS`. -/
  | clrofs
  /-- `NATIVESBK`. -/
  | nativesbk
  deriving DecidableEq, Repr

/-- The one command that each pseudo-instruction expands to (R83). -/
def expandPseudo (p : Params) : Pseudo → Instr
  | .initDefaultBus cs => .initA cs 0x00#8
  | .initClocked cs clk data => .initB cs clk data
  | .clrofs => .setofs 0x00000000#32
  | .nativesbk => .setsbk p.nativeSeebeck

/-- A blank between tokens: a space or a tab. -/
def isBlank (c : Char) : Bool := c == ' ' || c == '\t'

/-- A token without the blanks around it. -/
def trim (l : List Char) : List Char := ((l.dropWhile isBlank).reverse.dropWhile isBlank).reverse

/-- `;` starts a comment (R82). -/
def dropComment (l : List Char) : List Char := l.takeWhile (· != ';')

/-- The operands of a line, separated by commas (R82). -/
def splitOperands : List Char → List (List Char)
  | [] => [[]]
  | c :: cs =>
    match splitOperands cs with
    | [] => [[]]
    | t :: ts => if c == ',' then [] :: t :: ts else (c :: t) :: ts

/-- The value of a digit in a base; none for a character that is no digit of it. -/
def digitValue (base : Nat) (c : Char) : Option Nat :=
  let n := c.toNat
  let v := if 48 ≤ n && n ≤ 57 then n - 48
    else if 97 ≤ n && n ≤ 102 then n - 87
    else if 65 ≤ n && n ≤ 70 then n - 55
    else 16
  if v < base then some v else none

/-- The number that a string of digits writes, above an accumulator. -/
def digitsValue (base : Nat) : Nat → List Char → Option Nat
  | acc, [] => some acc
  | acc, c :: cs =>
    match digitValue base c with
    | none => none
    | some d => digitsValue base (base * acc + d) cs

/-- A nonempty string of digits. -/
def parseDigits (base : Nat) (l : List Char) : Option Nat :=
  if l.isEmpty then none else digitsValue base 0 l

/-- A decimal or `0x` hexadecimal integer of at most `width` bits (R82). -/
def parseInteger (width : Nat) (l : List Char) : Option (BitVec width) :=
  let n := match l with
    | '0' :: 'x' :: ds => parseDigits 16 ds
    | ds => parseDigits 10 ds
  match n with
  | some v => if v < 2 ^ width then some (BitVec.ofNat width v) else none
  | none => none

/-- The magnitude of a decimal real without sign: digits, or digits, a point and digits (DESIGN CHOICE, safe, log 12). -/
def parseMagnitude (l : List Char) : Option ℚ :=
  let whole := l.takeWhile (· != '.')
  match l.dropWhile (· != '.') with
  | [] => (parseDigits 10 whole).map (fun n => (n : ℚ))
  | _ :: frac =>
    match parseDigits 10 whole, parseDigits 10 frac with
    | some n, some f => some ((n : ℚ) + (f : ℚ) / (10 : ℚ) ^ frac.length)
    | _, _ => none

/-- A decimal real assembled as the nearest binary32 (R82). DESIGN CHOICE, safe, log 12: R82 says only "a decimal real"; a
leading plus sign is accepted, and a written minus sign is the sign of a zero. -/
def parseReal (l : List Char) : Option F32 :=
  match l with
  | '-' :: ds => (parseMagnitude ds).map (fun q => f32Round true (-q))
  | '+' :: ds => (parseMagnitude ds).map (fun q => f32Round false q)
  | ds => (parseMagnitude ds).map (fun q => f32Round false q)

/-- A binary32 operand: `0x` and eight hexadecimal digits as the raw pattern, or a decimal real (R82). -/
def parseFloat (l : List Char) : Option F32 :=
  match l with
  | '0' :: 'x' :: ds => if ds.length = 8 then (parseDigits 16 ds).map (BitVec.ofNat 32) else none
  | ds => parseReal ds

/-- The mnemonics of the commands that take no operand, and `CLROFS`, `NATIVESBK` (R82, R83). -/
def assemblePlain (p : Params) (m : List Char) : Option Instr :=
  if m = ['R', 'E', 'A', 'D'] then some .read
  else if m = ['G', 'E', 'T', 'P', 'T'] then some .getpt
  else if m = ['G', 'E', 'T', 'I', 'T'] then some .getit
  else if m = ['G', 'E', 'T', 'S', 'T'] then some .getst
  else if m = ['G', 'E', 'T', 'T', 'S'] then some .getts
  else if m = ['C', 'L', 'R', 'O', 'F', 'S'] then some (expandPseudo p .clrofs)
  else if m = ['N', 'A', 'T', 'I', 'V', 'E', 'S', 'B', 'K'] then some (expandPseudo p .nativesbk)
  else none

/-- The mnemonics that take one operand (R82, R83). -/
def assembleOne (p : Params) (m a : List Char) : Option Instr :=
  if m = ['S', 'E', 'T', 'O', 'F', 'S'] then (parseFloat a).map .setofs
  else if m = ['S', 'E', 'T', 'S', 'B', 'K'] then (parseFloat a).map .setsbk
  else if m = ['S', 'E', 'T', 'F', 'R', 'Q'] then (parseInteger 32 a).map .setfrq
  else if m = ['S', 'E', 'T', 'D', 'L', 'Y'] then (parseInteger 16 a).map .setdly
  else if m = ['I', 'N', 'I', 'T'] then (parseInteger 8 a).map (fun cs => expandPseudo p (.initDefaultBus cs))
  else none

/-- `INIT.A`, the mnemonic that takes two operands (R82). -/
def assembleTwo (m a b : List Char) : Option Instr :=
  if m = ['I', 'N', 'I', 'T', '.', 'A'] then
    match parseInteger 8 a, parseInteger 8 b with
    | some cs, some bus => some (.initA cs bus)
    | _, _ => none
  else none

/-- `INIT.B` and the three-operand `INIT` (R82, R83). -/
def assembleThree (p : Params) (m a b c : List Char) : Option Instr :=
  match parseInteger 8 a, parseInteger 8 b, parseInteger 8 c with
  | some cs, some clk, some data =>
    if m = ['I', 'N', 'I', 'T', '.', 'B'] then some (.initB cs clk data)
    else if m = ['I', 'N', 'I', 'T'] then some (expandPseudo p (.initClocked cs clk data))
    else none
  | _, _, _ => none

/-- The command that a mnemonic and its operands name (R82, R83). -/
def assembleTokens (p : Params) (m : List Char) (operands : List (List Char)) : Option Instr :=
  match operands with
  | [a] => if a.isEmpty then assemblePlain p m else assembleOne p m a
  | [a, b] => assembleTwo m a b
  | [a, b, c] => assembleThree p m a b c
  | _ => none

/-- One line of assembly text (R82). -/
def assembleLine (p : Params) (line : List Char) : AsmLine :=
  let l := trim (dropComment line)
  if l.isEmpty then .blank
  else
    let m := l.takeWhile (fun c => !isBlank c)
    let operands := (splitOperands (l.dropWhile (fun c => !isBlank c))).map trim
    match assembleTokens p m operands with
    | some i => .word (encode i)
    | none => .error

end Sys2Proof.Machine
end

