-- ==== Sys2Proof/Machine/Session.lean ====
section
/-! DEFINITION. The run as its host sees it (70_reset_and_hazards.md R233, R234): after a refusal the host may go on, and the
refusal mark stays (60_exceptions.md R203). -/

namespace Sys2Proof.Machine

/-- After a refused input: nothing has changed, no response was given, the host's input is spent, and the mark holds the first
refusal of the run (R203, R206). -/
def afterRefusal (s : State) (r : Refusal) : State :=
  { s with hostQueue := s.hostQueue.tail, refusalMark := some (s.refusalMark.getD r) }

/-- One host interaction, total: a step, or a refusal recorded (R182, R203). -/
def hostStep (s : State) : State :=
  match step s with
  | .next t => t
  | .refused r => afterRefusal s r
  | .fault f => nomatch f

/-- A number of host interactions. -/
def hostRun : Nat → State → State
  | 0, s => s
  | n + 1, s => hostRun n (hostStep s)

/-- How many of the host's coming inputs there are up to its last command: a reset queued after that command does not count. -/
def inputsToLastCommand (inputs : List HostInput) : Nat := (inputs.rdropWhile (· == .reset)).length

/-- The end of a run: the host's last command has responded or been refused (R233). What the host sends after it, which can only
be a reset, is not part of the run. DEDUCED, safe, log 18: with no command coming, the run is at its end already. -/
def finalState (s : State) : State := hostRun (inputsToLastCommand s.hostQueue) s

end Sys2Proof.Machine
end

