-- ==== Sys2Proof/Machine/Instances.lean ====
section
/-! DEFINITION. Several blocks on one platform (60_exceptions.md R210; 70_reset_and_hazards.md R230): each has its own copy of
every register and its own trace, and its lines are its own. -/

namespace Sys2Proof.Machine

/-- The pins that belong to a block: none before initialization, chip-select under ACCEL (the bus has its own lines), all three
under BITCLK (70 R230; DEDUCED that an unconfigured block owns none, safe, log 14). -/
def State.ownedPins (s : State) : List PinId :=
  match s.lifecycle, s.transport with
  | .uninit, _ => []
  | .configured, .accel => [s.pinCs]
  | .configured, .bitclk => [s.pinCs, s.pinClk, s.pinData]

/-- No pin belongs to two blocks (70 R230). Two blocks may name one bus, but then their chip-selects differ (60 R210). -/
def linesExclusive (blocks : List State) : Bool :=
  decide (blocks.Pairwise (fun a b => ∀ p ∈ a.ownedPins, p ∉ b.ownedPins))

/-- The pin that an event sets, drives or samples; a bus event names no pin. -/
def Event.pin : Event → Option PinId
  | .pinMode p _ => some p
  | .pinWrite p _ => some p
  | .pinRead p _ => some p
  | .delayUs _ => none
  | .busBegin _ => none
  | .busBeginTransaction _ _ _ _ => none
  | .busTransfer _ _ _ => none
  | .busEndTransaction _ => none

/-- One host interaction with the k-th of several blocks (R210). There is none where it would begin or end with a pin that
belongs to two blocks: the model has no run in which the host breaks that duty (R210, 70 R230; DESIGN CHOICE that the missing
step is `none`, safe, log 14). A READ is one step, so two never overlap.
Past the ends of their answer lists two blocks read the same free values where their counters `draws` are equal
(DESIGN CHOICE, unsafe, log 17). -/
def stepBlock (blocks : List State) (k : Nat) : Option (List State) :=
  let next := blocks.modify k hostStep
  if linesExclusive blocks && linesExclusive next then some next else none

end Sys2Proof.Machine
end

