-- ==== Sys2Proof/Machine/Events.lean ====
section
/-! DEFINITION. The transfers in closed form: the events that 42_accelerated_transport.md R120 and 43_bitclocked_transport.md
R140 count out, and the frames that R124 and R144 assemble. Statements cite these; the step runs Transport.lean. -/

namespace Sys2Proof.Machine

/-- The eight events of one XFER.A, in order (R120). -/
def accelEvents (s : State) : List Event :=
  [.busBeginTransaction s.busId s.spiFreqHz .msbFirst s.params.spiMode,
   .pinWrite s.pinCs .low,
   .busTransfer s.busId 0x00#8 (s.busAnswerAt 0),
   .busTransfer s.busId 0x00#8 (s.busAnswerAt 1),
   .busTransfer s.busId 0x00#8 (s.busAnswerAt 2),
   .busTransfer s.busId 0x00#8 (s.busAnswerAt 3),
   .pinWrite s.pinCs .high,
   .busEndTransaction s.busId]

/-- The frame that four received bytes make: the first is the most significant (R124). -/
def accelFrame (s : State) : Frame :=
  s.busAnswerAt 0 ++ s.busAnswerAt 1 ++ s.busAnswerAt 2 ++ s.busAnswerAt 3

/-- The events of a half-delay: none when it is zero (R143). -/
def delayEvents (n : BitVec 16) : List Event := if n = 0#16 then [] else [.delayUs n]

/-- The events of one bit of XFER.B (R142), the sample being `b`. -/
def bitGroup (clk data : PinId) (d : BitVec 16) (b : BitVec 1) : List Event :=
  .pinWrite clk .low :: (delayEvents (delayLow d) ++ .pinRead data b :: .pinWrite clk .high :: delayEvents (delayHigh d))

/-- The events of one XFER.B: chip-select low, 32 bit groups, chip-select high (R140, R141). -/
def clockedEvents (s : State) : List Event :=
  .pinWrite s.pinCs .low ::
    ((List.range 32).flatMap (fun k => bitGroup s.pinClk s.pinData s.bitDelayUs (s.pinAnswerAt k)) ++
      [.pinWrite s.pinCs .high])

/-- A frame shifted together from `n` samples, starting with sample `k`, below the bits already there (R144). -/
def shiftSamples (f : Nat → BitVec 1) : Nat → Nat → Frame → Frame
  | _, 0, w => w
  | k, n + 1, w => shiftSamples f (k + 1) n ((w <<< 1) ||| (f k).setWidth 32)

/-- The frame that 32 samples make (R144). -/
def clockedFrame (s : State) : Frame := shiftSamples s.pinAnswerAt 0 32 0x00000000#32

/-- The events that the transfer of a READ appends, by the transport (44_reader_commands.md R163). -/
def transferEvents (s : State) : List Event :=
  match s.transport with
  | .accel => accelEvents s
  | .bitclk => clockedEvents s

/-- The frame that the transfer of a READ returns. -/
def transferFrame (s : State) : Frame :=
  match s.transport with
  | .accel => accelFrame s
  | .bitclk => clockedFrame s

/-- Everything the transfer of a READ leaves: its events, the lines high, the answers drawn (R120, R140). -/
def afterTransfer (s : State) : State :=
  { s with
    trace := s.trace ++ transferEvents s
    lineCs := .high
    lineClk := if s.transport = .bitclk then .high else s.lineClk
    pinAnswers := if s.transport = .bitclk then s.pinAnswers.drop 32 else s.pinAnswers
    busAnswers := if s.transport = .accel then s.busAnswers.drop 4 else s.busAnswers
    draws := s.draws + if s.transport = .bitclk then 32 else 4 }

end Sys2Proof.Machine
end

