-- ==== Sys2Proof/Safety.lean ====
section
/-! DEFINITION. What counts as a safe run, in the terms claims use: the premises of 70_reset_and_hazards.md R235, the invariants
of 10_state.md R39, and the level a trace leaves a line at (R36). -/

namespace Sys2Proof.Machine

/-- `NoRefusal` (R235): the refusal mark is clear. -/
def NoRefusal (s : State) : Prop := s.refusalMark = none

/-- `FromReset` (R235): the state of R220 for some parameters, with whatever the host will send and the environment will answer. -/
def FromReset (s : State) : Prop :=
  ∃ (p : Params) (q : List HostInput) (pins : List (BitVec 1)) (bytes : List Byte) (times : List Word),
    s = { State.resetWith p with hostQueue := q, pinAnswers := pins, busAnswers := bytes, nowAnswers := times }

/-- The next interaction is a READ that is not refused: the only one that samples a pin, transfers a byte or draws a timestamp
(44_reader_commands.md R163). -/
def nextIsRead (s : State) : Bool :=
  s.lifecycle == .configured && s.hostQueue.head? == some (.command (encode .read))

/-- Whether the sensor drives the data line, at the n-th draw of a run (`State.draws` numbers them) and, within it, while bit i of
the drawn value is taken. The sensor is no part of the block (00_scope.md R5), so a claim ranges over all of these. -/
abbrev SensorDrives := Nat → Nat → Bool

/-- The samples and bytes of one transfer read 1 in every bit that is taken while the sensor is not driving the line. -/
def PulledUp (drives : SensorDrives) (s : State) : Prop :=
  match s.transport with
  | .bitclk => ∀ k, k < 32 → drives (s.draws + k) 0 = false → s.pinAnswerAt k = 1#1
  | .accel => ∀ k, k < 4 → ∀ i, i < 8 → drives (s.draws + k) i = false → (s.busAnswerAt k).getLsbD i = true

/-- `PullUpFitted` (R235): in every transfer of the run that starts in `s`, every bit of every `PinRead` and `BusTransfer` is 1
when the sensor is not driving the line (70 R227). -/
def PullUpFitted (drives : SensorDrives) (s : State) : Prop :=
  ∀ n, nextIsRead (hostRun n s) = true → PulledUp drives (hostRun n s)

/-- The sensor drives no bit of the coming transfer: it is disconnected or unpowered (70 R227). -/
def SensorSilent (drives : SensorDrives) (s : State) : Prop :=
  match s.transport with
  | .bitclk => ∀ k, k < 32 → drives (s.draws + k) 0 = false
  | .accel => ∀ k, k < 4 → ∀ i, i < 8 → drives (s.draws + k) i = false

/-- A primitive of an interaction: one that appends an event, or `Now()`, which appends none (00_scope.md R10). -/
inductive Primitive where
  | event (e : Event)
  | now
  deriving DecidableEq, Repr

/-- The primitives that a collaborator or the time source may fail to return from (R235). -/
def Primitive.waits : Primitive → Bool
  | .event (.pinRead _ _) => true
  | .event (.busTransfer _ _ _) => true
  | .event (.delayUs _) => true
  | .event (.pinMode _ _) => false
  | .event (.pinWrite _ _) => false
  | .event (.busBegin _) => false
  | .event (.busBeginTransaction _ _ _ _) => false
  | .event (.busEndTransaction _) => false
  | .now => true

/-- The primitives of one interaction, in order: its events, then the timestamp that a READ draws for a frame other than the
sentinel (41_frame_decoder.md R108). -/
def primitives (s : State) : List Primitive :=
  ((hostStep s).trace.drop s.trace.length).map .event ++
    (if nextIsRead s && transferFrame s != Config.sentinel then [.now] else [])

/-- The primitives that are issued when the i-th, (i+1)-th, ... return as `returns` says: all up to the first that does not
return. The rest never happens: the hang of 70 R232, which a step cannot show (log 14). -/
def issued (returns : Nat → Bool) : Nat → List Primitive → List Primitive
  | _, [] => []
  | i, p :: rest => if p.waits && !returns i then [p] else p :: issued returns (i + 1) rest

/-- `CollaboratorsReturn` (R235): every `PinRead`, `BusTransfer`, `DelayUs` and `Now()` of the run that starts in `s` returns;
`returns n i` is whether the i-th primitive of the n-th interaction does. Only claims about termination need it (70 R232). -/
def CollaboratorsReturn (returns : Nat → Nat → Bool) (s : State) : Prop :=
  ∀ n i p, (primitives (hostRun n s))[i]? = some p → p.waits = true → returns n i = true

/-- `HasData` (R235): a returned temperature is a real reading. -/
def HasData (s : State) : Prop := s.hasData = true

/-- The legal values of `STATUS` (R31, R39 item 1). -/
def StatusLegal (b : Byte) : Prop := b.toNat ≤ 7 ∨ b = Config.statusNoRead ∨ b = Config.statusNoComm

/-- The five invariants of 10_state.md R39, in its order. -/
structure RegInv (s : State) : Prop where
  status_legal : StatusLegal s.status
  no_data_cache : s.hasData = false → s.intCode = 0 ∧ s.probeCode = 0 ∧ s.lastReadTs = 0
  no_data_status : s.hasData = false → s.status = Config.statusNoRead ∨ s.status = Config.statusNoComm
  uninit_fresh : s.lifecycle = .uninit → s.hasData = false ∧ s.status = Config.statusNoRead
  cs_released : s.lineCs = .undriven ∨ s.lineCs = .high

/-- The level that a trace last drove on a pin: the last `PinWrite` event of that pin (R36). -/
def lastDriven (p : PinId) : List Event → LineLevel
  | [] => .undriven
  | e :: rest =>
    match lastDriven p rest with
    | .undriven =>
      match e with
      | .pinWrite q l => if q = p then l.line else .undriven
      | _ => .undriven
    | l => l

/-- The line registers agree with the trace (R36), and the clock line is the block's own only under BITCLK (20_memory.md R55). -/
structure LineInv (s : State) : Prop where
  uninit_silent : s.lifecycle = .uninit → s.trace = [] ∧ s.lineCs = .undriven ∧ s.lineClk = .undriven
  cs_traced : s.lifecycle = .configured → s.lineCs = lastDriven s.pinCs s.trace
  clk_traced : s.lifecycle = .configured → s.transport = .bitclk → s.lineClk = lastDriven s.pinClk s.trace
  clk_unused : s.transport = .accel → s.lineClk = .undriven
  pins_distinct : s.transport = .bitclk → s.pinCs ≠ s.pinClk ∧ s.pinCs ≠ s.pinData ∧ s.pinClk ≠ s.pinData

/-- The microseconds that a `DelayUs` event asks for (43_bitclocked_transport.md R147). -/
def delayOf : Event → Nat
  | .delayUs us => us.toNat
  | _ => 0

/-- The microseconds that a list of events asks for. -/
def totalDelay (l : List Event) : Nat := (l.map delayOf).sum

/-- A word with the opcode of a table row that the row does not select is refused as a reserved field (30_encoding.md R78). -/
def OthersReserved (pattern mask : Command) : Prop :=
  ∀ c : Command, fieldOpc c = fieldOpc pattern → c &&& mask ≠ pattern → decode c = .error .reservedField

/-- A refused command word: it is refused by that reason, it changes nothing, it gets no response, it sets the mark (60 R203).
That the mark is a field, that it keeps the first reason and that the host's run goes on is the model's choice (log 3). -/
def RefusedWithoutEffect (s : State) (rest : List HostInput) (r : Refusal) : Prop :=
  step s = .refused r ∧
    hostStep s = { s with hostQueue := rest, refusalMark := some (s.refusalMark.getD r) }

/-- A finite binary32 is the one nearest to a rational, ties to even (00_scope.md R9). -/
def NearestEven (r : F32) (q : ℚ) : Prop :=
  ∀ x : F32, f32IsFinite x = true →
    |f32Value r - q| ≤ |f32Value x - q| ∧
      (|f32Value r - q| = |f32Value x - q| → f32Value x ≠ f32Value r → r.getLsbD 0 = false)

/-- A result is `q` rounded to binary32: the nearest with ties to even, of the sign of a nonzero `q`, or an infinity of its sign
beyond the largest finite value and half a unit (00_scope.md R9). -/
def RoundedTo (r : F32) (q : ℚ) : Prop :=
  if |q| < (2 ^ 25 - 1) * (2 : ℚ) ^ 103 then
    f32IsFinite r = true ∧ NearestEven r q ∧ (q ≠ 0 → f32Sign r = decide (q < 0))
  else r = f32Infinity (decide (q < 0))

/-- A quiet NaN, whichever (93_implementation_defined.md I-11). -/
def IsQuietNaN (r : F32) : Prop := f32Exponent r = 255 ∧ r.getLsbD 22 = true

end Sys2Proof.Machine
end

