-- ==== Sys2Proof/Certificates/Slice0/Obligations.lean ====
section
/-! DEFINITION. The statements for the provers. Each docstring names the rule of spec/ it formalises; where a clause is the
model's own choice it says so and names the log entry. -/

open Sys2Proof Sys2Proof.Machine

/-! ## Encoding (30_encoding.md) -/

/-- Decoding the word of any command gives that command back, with every operand at every value (R74, R76, R77). -/
def Obligations.DecodeInvertsEncode : Prop := ∀ i : Instr, decode (encode i) = .ok i

/-- A word that decodes is the word of the command it decodes to: no bit of it is dropped (R74, R76, R77). -/
def Obligations.EncodeInvertsDecode : Prop := ∀ (c : Command) (i : Instr), decode c = .ok i → encode i = c

/-- R80 (derived in the spec): decoding is selection of a row of spec/opcode_table.json by mask and pattern, at most one row
selects a word, and a word that none selects is refused by its opcode. -/
def Obligations.DecodingIsRowSelection : Prop :=
  (∀ (c : Command) (i : Instr), decode c = .ok i ↔ ∃ r ∈ opcodeTable, r.selects c = true ∧ assemble r.opcode c = i) ∧
  (∀ (c : Command), ∀ r ∈ opcodeTable, ∀ r' ∈ opcodeTable, r.selects c = true → r'.selects c = true → r = r') ∧
  (∀ (c : Command), (∀ r ∈ opcodeTable, r.selects c = false) →
    decode c = .error (if ∃ r ∈ opcodeTable, fieldOpc r.pattern = fieldOpc c then .reservedField else .illegalOpcode))

/-- An unassigned opcode is refused with ILLEGAL_OPCODE and has no effect (R79); 245 opcodes are unassigned. That the refusal mark
is a field that keeps the first reason while the host's run goes on is the model's choice (log 3). -/
def Obligations.UnassignedOpcodesAreRefused : Prop :=
  (∀ (s : State) (c : Command) (rest : List HostInput), s.hostQueue = .command c :: rest →
    fieldOpc c ∉ [0x10#8, 0x11#8, 0x20#8, 0x30#8, 0x31#8, 0x32#8, 0x33#8, 0x40#8, 0x41#8, 0x42#8, 0x43#8] →
    RefusedWithoutEffect s rest .illegalOpcode) ∧
  ((List.range 256).filter (fun n => opcodeOf (BitVec.ofNat 8 n) = none)).length = 245

/-- A word whose opcode is in the map and whose "must be 0" fields are not all zero is refused with RESERVED_FIELD and has no
effect (R78). That the refusal mark is a field that keeps the first reason while the host's run goes on is the model's choice
(log 3). -/
def Obligations.NonzeroReservedFieldsAreRefused : Prop :=
  ∀ (s : State) (c : Command) (rest : List HostInput), s.hostQueue = .command c :: rest →
    ∀ r ∈ opcodeTable, fieldOpc c = fieldOpc r.pattern → r.selects c = false →
      RefusedWithoutEffect s rest .reservedField

/-- Words written out from 30_encoding.md R84 and 95_test_vectors.md V-E04 to V-E18 decode to their commands. -/
def Obligations.SpecWordsDecode : Prop :=
  decode 0x100A000000000000#64 = .ok (.initA 10#8 0#8) ∧
  decode 0x1005010000000000#64 = .ok (.initA 5#8 1#8) ∧
  decode 0x110A0D0C00000000#64 = .ok (.initB 10#8 13#8 12#8) ∧
  decode 0x2000000000000000#64 = .ok .read ∧
  decode 0x3000000000000000#64 = .ok .getpt ∧
  decode 0x3100000000000000#64 = .ok .getit ∧
  decode 0x3200000000000000#64 = .ok .getst ∧
  decode 0x3300000000000000#64 = .ok .getts ∧
  decode 0x400000003FC00000#64 = .ok (.setofs 0x3FC00000#32) ∧
  decode 0x4100000042500000#64 = .ok (.setsbk 0x42500000#32) ∧
  decode 0x42000000003D0900#64 = .ok (.setfrq 4000000#32) ∧
  decode 0x430000000000FFFF#64 = .ok (.setdly 65535#16)

/-- R83: `INIT` with one operand is `INIT.A` with bus 0, `INIT` with three is `INIT.B`, whatever the operands; `CLROFS` is
`SETOFS 0x00000000`; `NATIVESBK` is SETSBK with the native pattern. As lines of text they assemble to one command word. -/
def Obligations.PseudoInstructionsAssemble : Prop :=
  ∀ (p : Params) (a b c : List Char),
    assembleTokens p ['I', 'N', 'I', 'T'] [a] = assembleTokens p ['I', 'N', 'I', 'T', '.', 'A'] [a, ['0']] ∧
    assembleTokens p ['I', 'N', 'I', 'T'] [a, b, c] = assembleTokens p ['I', 'N', 'I', 'T', '.', 'B'] [a, b, c] ∧
    assembleTokens p ['C', 'L', 'R', 'O', 'F', 'S'] [[]] =
      assembleTokens p ['S', 'E', 'T', 'O', 'F', 'S'] [['0', 'x', '0', '0', '0', '0', '0', '0', '0', '0']] ∧
    assembleTokens p ['N', 'A', 'T', 'I', 'V', 'E', 'S', 'B', 'K'] [[]] = some (.setsbk p.nativeSeebeck) ∧
    assembleLine p ['I', 'N', 'I', 'T', ' ', '1', '0'] = .word (encode (.initA 10#8 0#8)) ∧
    assembleLine p ['I', 'N', 'I', 'T', ' ', '1', '0', ',', ' ', '1', '3', ',', ' ', '1', '2'] =
      .word (encode (.initB 10#8 13#8 12#8)) ∧
    assembleLine p ['C', 'L', 'R', 'O', 'F', 'S'] = .word 0x4000000000000000#64 ∧
    assembleLine p ['N', 'A', 'T', 'I', 'V', 'E', 'S', 'B', 'K'] = .word (encode (.setsbk p.nativeSeebeck))

/-! ## Steps, reset, invariants -/

/-- A command word at the port that decodes is executed on the state with that word taken from the port; nothing else is
done around it. That the port is a list in the state is the model's choice (log 1). -/
def Obligations.StepRunsTheDecodedCommand : Prop :=
  ∀ (s : State) (c : Command) (rest : List HostInput) (i : Instr), s.hostQueue = .command c :: rest → decode c = .ok i →
    step s = exec i { s with hostQueue := rest }

/-- With nothing at the port the block is idle and holds all its state (60_exceptions.md section 8). That this is a step is
the model's choice (log 1). -/
def Obligations.IdleBlockHoldsItsState : Prop := ∀ s : State, s.hostQueue = [] → step s = .next s

/-- R220: reset sets every register of 10_state.md R37 to its reset value and emits no event. -/
def Obligations.ResetSetsEveryRegister : Prop :=
  ∀ (s : State) (rest : List HostInput), s.hostQueue = .reset :: rest →
    ∃ t, step s = .next t ∧
      t.lifecycle = .uninit ∧ t.transport = .accel ∧
      t.pinCs = 0#8 ∧ t.pinClk = 0#8 ∧ t.pinData = 0#8 ∧ t.busId = 0#8 ∧
      t.spiFreqHz = s.params.defaultSpiFreqHz ∧ t.bitDelayUs = 0#16 ∧
      t.calOffset = 0x00000000#32 ∧ t.seebeck = s.params.nativeSeebeck ∧
      t.status = Config.statusNoRead ∧ t.hasData = false ∧ t.intCode = 0#12 ∧ t.probeCode = 0#14 ∧ t.lastReadTs = 0#32 ∧
      t.lineCs = .undriven ∧ t.lineClk = .undriven ∧ t.trace = []

/-- The model's choice (log 9): a reset gives the power-on state of the same parameters, but for the host's record and plan and
the environment's answers, which lie outside the block and stay. -/
def Obligations.ResetKeepsWhatLiesOutsideTheBlock : Prop :=
  ∀ (s : State) (rest : List HostInput), s.hostQueue = .reset :: rest →
    step s = .next { State.resetWith s.params with
      responses := s.responses, refusalMark := s.refusalMark, hostQueue := rest, pinAnswers := s.pinAnswers,
      busAnswers := s.busAnswers, nowAnswers := s.nowAnswers, draws := s.draws }

/-- The reset state has the invariants of 10_state.md R39 and its lines agree with its trace (R36), for all parameters. -/
def Obligations.ResetStateHasTheInvariants : Prop :=
  ∀ p : Params, RegInv (State.resetWith p) ∧ LineInv (State.resetWith p)

/-- R39 (derived in the spec): every step from any state keeps the five register invariants. -/
def Obligations.StepKeepsRegisterInvariants : Prop := ∀ s t : State, RegInv s → step s = .next t → RegInv t

/-- Every step from any state keeps the line registers equal to what the trace last drove (R36). That a line is told by its role
and not by its pin number, so that under `ACCEL` the clock line stays undriven also for chip-select pin 0
(`LineInv.clk_unused`), is the model's choice (log 8). -/
def Obligations.StepKeepsLinesEqualToTrace : Prop := ∀ s t : State, LineInv s → step s = .next t → LineInv t

/-- The invariants of R39 and the agreement of lines and trace hold in every reachable state: after any host inputs and any
answers. That the lines are told by their role (so that `INIT.A 0` leaves the clock line undriven) is the model's choice (log 8),
and so is that a run goes on after a refused input (log 3). -/
def Obligations.ReachableStatesHaveTheInvariants : Prop :=
  ∀ (s : State) (n : Nat), FromReset s → RegInv (hostRun n s) ∧ LineInv (hostRun n s)

/-- No step changes a parameter. 00_scope.md R6 names the parameters and arguments of the model; that those it calls arguments
stand in the state as a field that no step changes is read from it, and is the model's choice (log 5). -/
def Obligations.ParametersNeverChange : Prop := ∀ s t : State, step s = .next t → t.params = s.params

/-! ## Initialize (44_reader_commands.md R160 to R162) -/

/-- INIT.A from its word to its effect (R160): encoding, refusals, events, registers, response. Everything else is unchanged.
That `LINE_CLK` is unchanged also for chip-select pin 0, while `PIN_CLK` holds 0, is the model's choice (log 8). -/
def Obligations.InitAConfiguresAccelerated : Prop :=
  (∀ (c : Command) (cs : PinId) (bus : BusId), decode c = .ok (.initA cs bus) ↔ c = 0x10#8 ++ cs ++ bus ++ 0#8 ++ 0#32) ∧
  OthersReserved 0x1000000000000000#64 0xFF0000FFFFFFFFFF#64 ∧
  (∀ (cs : PinId) (bus : BusId) (s : State), s.lifecycle = .uninit →
    exec (.initA cs bus) s = .next { s with
      pinCs := cs, busId := bus, transport := .accel, lifecycle := .configured, lineCs := .high
      trace := s.trace ++ [.pinMode cs .output, .pinWrite cs .high, .busBegin bus]
      responses := s.responses ++ [0x00000000#32] }) ∧
  (∀ (cs : PinId) (bus : BusId) (s : State), s.lifecycle = .configured → exec (.initA cs bus) s = .refused .reinit)

/-- R161: INIT.B from its word to its effect: encoding, refusals in their order, events, registers, response. -/
def Obligations.InitBConfiguresBitClocked : Prop :=
  (∀ (c : Command) (cs clk data : PinId), decode c = .ok (.initB cs clk data) ↔ c = 0x11#8 ++ cs ++ clk ++ data ++ 0#32) ∧
  OthersReserved 0x1100000000000000#64 0xFF000000FFFFFFFF#64 ∧
  (∀ (cs clk data : PinId) (s : State), s.lifecycle = .uninit → cs ≠ clk → cs ≠ data → clk ≠ data →
    exec (.initB cs clk data) s = .next { s with
      pinCs := cs, pinClk := clk, pinData := data, transport := .bitclk, lifecycle := .configured
      lineCs := .high, lineClk := .low
      trace := s.trace ++ [.pinMode cs .output, .pinWrite cs .high, .pinMode clk .output, .pinWrite clk .low,
        .pinMode data .input]
      responses := s.responses ++ [0x00000000#32] }) ∧
  (∀ (cs clk data : PinId) (s : State), s.lifecycle = .uninit → (cs = clk ∨ cs = data ∨ clk = data) →
    exec (.initB cs clk data) s = .refused .pinConflict) ∧
  (∀ (cs clk data : PinId) (s : State), s.lifecycle = .configured → exec (.initB cs clk data) s = .refused .reinit)

/-- A configured block refuses a second INIT without effect, and no step but a reset changes its lifecycle, transport, pins or
bus (R162). That the refusal mark is a field that keeps the first reason while the host's run goes on is the model's choice
(log 3). -/
def Obligations.InitializationHappensOnce : Prop :=
  (∀ (s : State) (c : Command) (rest : List HostInput) (i : Instr), s.hostQueue = .command c :: rest →
    decode c = .ok i → s.lifecycle = .configured → (i.opcode = .initA ∨ i.opcode = .initB) →
    RefusedWithoutEffect s rest .reinit) ∧
  (∀ s t : State, s.lifecycle = .configured → s.hostQueue.head? ≠ some .reset → step s = .next t →
    t.lifecycle = .configured ∧ t.transport = s.transport ∧ t.pinCs = s.pinCs ∧ t.pinClk = s.pinClk ∧
      t.pinData = s.pinData ∧ t.busId = s.busId)

/-! ## Transports (42, 43) -/

/-- XFER.A emits its eight events, assembles the four received bytes most significant first, leaves `LINE_CS` high, and writes
no register (R120, R121, R123, R124). The bytes are whatever the environment answers: the listed ones first. That `LINE_CLK` is
unchanged also where `PIN_CS` and `PIN_CLK` are the same number, as after `INIT.A 0`, is the model's choice (log 8): read by pin
number, R36 would have the chip-select writes update it. -/
def Obligations.AcceleratedTransferExchangesFourBytes : Prop :=
  (∀ s : State,
    xferA s = (s.busAnswerAt 0 ++ s.busAnswerAt 1 ++ s.busAnswerAt 2 ++ s.busAnswerAt 3, { s with
      trace := s.trace ++
        [.busBeginTransaction s.busId s.spiFreqHz .msbFirst s.params.spiMode, .pinWrite s.pinCs .low,
         .busTransfer s.busId 0x00#8 (s.busAnswerAt 0), .busTransfer s.busId 0x00#8 (s.busAnswerAt 1),
         .busTransfer s.busId 0x00#8 (s.busAnswerAt 2), .busTransfer s.busId 0x00#8 (s.busAnswerAt 3),
         .pinWrite s.pinCs .high, .busEndTransaction s.busId]
      lineCs := .high, busAnswers := s.busAnswers.drop 4, draws := s.draws + 4 })) ∧
  (∀ (s : State) (b0 b1 b2 b3 : Byte) (rest : List Byte), s.busAnswers = b0 :: b1 :: b2 :: b3 :: rest →
    (xferA s).1 = b0 ++ b1 ++ b2 ++ b3 ∧ (xferA s).1.extractLsb' 24 8 = b0 ∧ (xferA s).1.extractLsb' 16 8 = b1 ∧
      (xferA s).1.extractLsb' 8 8 = b2 ∧ (xferA s).1.extractLsb' 0 8 = b3 ∧ (xferA s).2.busAnswers = rest)

/-- R144: the k-th sample of XFER.B is frame bit 31 - k, so no bit of the initial value survives. -/
def Obligations.ClockedTransferShiftsMsbFirst : Prop :=
  ∀ (s : State) (k : Nat), k < 32 → (xferB s).1.getLsbD (31 - k) = (s.pinAnswerAt k).getLsbD 0

/-- R140, R141, R142: XFER.B returns its 32 samples most significant first, writes no register, emits chip-select low, 32 bit
groups and chip-select high, 98, 130 or 162 events by the delay, and leaves both lines high. -/
def Obligations.ClockedTransferEmitsItsBitGroups : Prop :=
  ∀ s : State,
    (∀ k, k < 32 → (xferB s).1.getLsbD (31 - k) = (s.pinAnswerAt k).getLsbD 0) ∧
    (xferB s).2 = { s with
      trace := s.trace ++ .pinWrite s.pinCs .low ::
        ((List.range 32).flatMap (fun k =>
          .pinWrite s.pinClk .low :: ((if delayLow s.bitDelayUs = 0#16 then [] else [.delayUs (delayLow s.bitDelayUs)]) ++
            .pinRead s.pinData (s.pinAnswerAt k) :: .pinWrite s.pinClk .high ::
              (if delayHigh s.bitDelayUs = 0#16 then [] else [.delayUs (delayHigh s.bitDelayUs)]))) ++
          [.pinWrite s.pinCs .high])
      lineCs := .high, lineClk := .high, pinAnswers := s.pinAnswers.drop 32, draws := s.draws + 32 } ∧
    (xferB s).2.trace.length = s.trace.length +
      (if s.bitDelayUs = 0#16 then 98 else if s.bitDelayUs = 1#16 then 130 else 162)

/-- R143: the per-bit delay splits into its floor half after the sample and the rest before it; they differ by at most one,
and a zero half emits no event. -/
def Obligations.DelaySplitsIntoHalves : Prop :=
  (∀ d : BitVec 16, (delayHigh d).toNat = d.toNat / 2 ∧ (delayLow d).toNat = d.toNat - d.toNat / 2 ∧
    (delayLow d).toNat + (delayHigh d).toNat = d.toNat ∧
    ((delayLow d).toNat - (delayHigh d).toNat = 0 ∨ (delayLow d).toNat - (delayHigh d).toNat = 1)) ∧
  (∀ (s : State) (n : BitVec 16),
    s.delayUs n = if n.toNat = 0 then s else { s with trace := s.trace ++ [.delayUs n] })

/-- R147 (derived in the spec): the delays that one XFER.B asks for sum to 32 times the per-bit delay. -/
def Obligations.DelaysOfATransferSumTo32D : Prop :=
  ∀ s : State, ∃ events, (xferB s).2.trace = s.trace ++ events ∧ totalDelay events = 32 * s.bitDelayUs.toNat

/-- 70 R228 (derived in the spec): a READ asserts chip-select exactly once and releases it exactly once, whatever the transport;
the premise LineInv keeps the three lines apart, as in every reachable state (its clause `clk_unused` is the model's choice,
log 8). -/
def Obligations.ReadSelectsTheSensorOnce : Prop :=
  ∀ s : State, LineInv s → s.lifecycle = .configured →
    ∃ t events, exec .read s = .next t ∧ t.trace = s.trace ++ events ∧
      events.count (.pinWrite s.pinCs .low) = 1 ∧ events.count (.pinWrite s.pinCs .high) = 1 ∧ t.lineCs = .high

/-- R125, R146: every u32 is a possible frame, under either transport: some answers of the environment give it. -/
def Obligations.EveryFrameIsPossible : Prop :=
  ∀ (s : State) (w : Frame),
    (∃ bytes, (xferA { s with busAnswers := bytes }).1 = w) ∧ (∃ bits, (xferB { s with pinAnswers := bits }).1 = w)

/-! ## Frame decoder (41) -/

/-- R100, R101, R102, R108: the sentinel writes STATUS only and draws no timestamp; any other frame writes every cached field and
one drawn timestamp. -/
def Obligations.DecodeWritesTheCachedFields : Prop :=
  (∀ s : State, decodeFrame 0xFFFFFFFF#32 s = { s with status := Config.statusNoComm }) ∧
  (∀ (s : State) (w : Frame), w ≠ 0xFFFFFFFF#32 →
    decodeFrame w s = { s with
      status := (w.extractLsb' 0 3).setWidth 8, intCode := w.extractLsb' 4 12, probeCode := w.extractLsb' 18 14
      hasData := true, lastReadTs := s.nowAnswers[0]?.getD (Config.freeNow s.draws), nowAnswers := s.nowAnswers.tail
      draws := s.draws + 1 })

/-- R103: frames that differ only in bits 3, 16 and 17, neither of them the sentinel, decode alike; a fault bit with clear
status bits decodes to OK. -/
def Obligations.ReservedFrameBitsAreIgnored : Prop :=
  (∀ (s : State) (w w' : Frame), w ≠ Config.sentinel → w' ≠ Config.sentinel →
    w &&& 0xFFFCFFF7#32 = w' &&& 0xFFFCFFF7#32 → decodeFrame w s = decodeFrame w' s) ∧
  (∀ (s : State) (w : Frame), w.getLsbD 16 = true → w.extractLsb' 0 3 = 0#3 → (decodeFrame w s).status = 0x00#8)

/-- R109 (derived in the spec): a frame encoded from a status and on-grid temperatures is not the sentinel and decodes back to
them exactly. -/
def Obligations.FrameRoundTrip : Prop :=
  ∀ (stat : BitVec 3) (i p : ℤ), -2048 ≤ i → i ≤ 2047 → -8192 ≤ p → p ≤ 8191 →
    ∀ s : State, encodeFrame stat i p ≠ Config.sentinel ∧
      (decodeFrame (encodeFrame stat i p) s).status = stat.setWidth 8 ∧
      intTemp (decodeFrame (encodeFrame stat i p) s).intCode = (i : ℚ) / 16 ∧
      probeTemp (decodeFrame (encodeFrame stat i p) s).probeCode = (p : ℚ) / 4

/-- R104, R105: the negative-bias formulas, bit by bit, with their ranges and their corner of sign set and magnitude zero. -/
def Obligations.TemperatureFormulas : Prop :=
  (∀ k : BitVec 12, intTemp k = (if k.getLsbD 11 then -128 else 0) + ((k.toNat % 2 ^ 11 : ℕ) : ℚ) * 0.0625 ∧
    -128 ≤ intTemp k ∧ intTemp k ≤ 127.9375) ∧
  (∀ k : BitVec 14, probeTemp k = (if k.getLsbD 13 then -2048 else 0) + ((k.toNat % 2 ^ 13 : ℕ) : ℚ) * 0.25 ∧
    -2048 ≤ probeTemp k ∧ probeTemp k ≤ 2047.75) ∧
  intTemp 0x800#12 = -128 ∧ probeTemp 0x2000#14 = -2048 ∧ intTemp 0x019#12 = 1.5625 ∧ probeTemp 0x0280#14 = 160

/-- R107 (derived in the spec): both codes read as two's complement, their conversion to binary32 never rounds, and -0.0 never
arises. -/
def Obligations.CodesConvertExactly : Prop :=
  (∀ k : BitVec 12, intTemp k = (k.toInt : ℚ) / 16 ∧ f32IsFinite (f32Exact (intTemp k)) = true ∧
    f32Value (f32Exact (intTemp k)) = intTemp k ∧ f32Exact (intTemp k) ≠ 0x80000000#32) ∧
  (∀ k : BitVec 14, probeTemp k = (k.toInt : ℚ) / 4 ∧ f32IsFinite (f32Exact (probeTemp k)) = true ∧
    f32Value (f32Exact (probeTemp k)) = probeTemp k ∧ f32Exact (probeTemp k) ≠ 0x80000000#32)

/-! ## Read (44_reader_commands.md R163 to R165) -/

/-- READ from its word to its effect (R163): refused before initialization, else one transfer of the selected transport, one
decode, and the status as the response. Everything else is unchanged. That under `ACCEL` `LINE_CLK` is unchanged
(`afterTransfer`) also for chip-select pin 0, while `PIN_CLK` holds 0, is the model's choice (log 8). -/
def Obligations.ReadTransfersAndDecodes : Prop :=
  (∀ c : Command, decode c = .ok .read ↔ c = 0x2000000000000000#64) ∧
  OthersReserved 0x2000000000000000#64 0xFFFFFFFFFFFFFFFF#64 ∧
  (∀ s : State, s.lifecycle = .uninit → exec .read s = .refused .notInitialized) ∧
  (∀ s : State, s.lifecycle = .configured → transferFrame s = 0xFFFFFFFF#32 →
    exec .read s = .next { afterTransfer s with
      status := Config.statusNoComm, responses := s.responses ++ [Config.statusNoComm.setWidth 32] }) ∧
  (∀ (s : State) (w : Frame), s.lifecycle = .configured → transferFrame s = w → w ≠ 0xFFFFFFFF#32 →
    exec .read s = .next { afterTransfer s with
      status := (w.extractLsb' 0 3).setWidth 8, intCode := w.extractLsb' 4 12, probeCode := w.extractLsb' 18 14
      hasData := true, lastReadTs := s.nowAnswers[0]?.getD (Config.freeNow (afterTransfer s).draws)
      nowAnswers := s.nowAnswers.tail, draws := (afterTransfer s).draws + 1
      responses := s.responses ++ [(w.extractLsb' 0 3).setWidth 32] })

/-- R164: a sentinel READ responds STATUS_NOCOMM after exactly one transfer, leaves the cached fields and the timestamp, and
leaves the block configured, so that a later READ is accepted. -/
def Obligations.SentinelReadIsNotFatal : Prop :=
  ∀ s : State, s.lifecycle = .configured → transferFrame s = Config.sentinel →
    ∃ t, exec .read s = .next t ∧ t.responses = s.responses ++ [0x00000081#32] ∧ t.status = Config.statusNoComm ∧
      t.intCode = s.intCode ∧ t.probeCode = s.probeCode ∧ t.hasData = s.hasData ∧ t.lastReadTs = s.lastReadTs ∧
      t.trace = s.trace ++ transferEvents s ∧ t.lifecycle = .configured ∧ ∃ u, exec .read t = .next u

/-- R177 (derived in the spec): after a communication failure GETPT, GETIT and GETTS return what they returned before it. -/
def Obligations.StaleAnswersSurviveAFailure : Prop :=
  ∀ s : State, s.lifecycle = .configured → transferFrame s = Config.sentinel →
    ∃ t w p i, exec .read s = .next t ∧ t.status = Config.statusNoComm ∧
      exec .getpt s = .next (s.respond p) ∧ exec .getpt t = .next (t.respond p) ∧
      exec .getit s = .next (s.respond i) ∧ exec .getit t = .next (t.respond i) ∧
      exec .getts s = .next (s.respond w) ∧ exec .getts t = .next (t.respond w)

/-- 70 R227, R235: in a run with the pull-up fitted, a READ while the sensor does not drive the line reports communication
failure, under either transport. That the run goes on after a refused input is the model's choice (log 3). -/
def Obligations.PulledUpDisconnectionIsDetected : Prop :=
  ∀ (drives : SensorDrives) (s : State) (n : Nat), PullUpFitted drives s →
    nextIsRead (hostRun n s) = true → SensorSilent drives (hostRun n s) →
    ∃ t, step (hostRun n s) = .next t ∧ t.status = Config.statusNoComm ∧
      t.responses = (hostRun n s).responses ++ [0x00000081#32]

/-! ## Queries (44_reader_commands.md R166 to R172, R179, R180) -/

/-- R166: GETPT from its word to its effect: the sentinel without data, else the fast path or the slow path in its operation
order. Nothing but the response is written. -/
def Obligations.GetptReturnsTheProbeTemperature : Prop :=
  (∀ c : Command, decode c = .ok .getpt ↔ c = 0x3000000000000000#64) ∧
  OthersReserved 0x3000000000000000#64 0xFFFFFFFFFFFFFFFF#64 ∧
  (∀ s : State, s.hasData = false →
    exec .getpt s = .next { s with responses := s.responses ++ [Config.noTemperature] }) ∧
  (∀ s : State, s.hasData = true → f32Eq s.seebeck s.params.nativeSeebeck = true →
    exec .getpt s = .next { s with
      responses := s.responses ++ [f32Add (f32Exact (probeTemp s.probeCode)) s.calOffset] }) ∧
  (∀ s : State, s.hasData = true → f32Eq s.seebeck s.params.nativeSeebeck = false →
    exec .getpt s = .next { s with
      responses := s.responses ++
        [f32Add
          (f32Add
            (f32Div
              (f32Mul s.params.nativeSeebeck
                (f32Sub (f32Exact (probeTemp s.probeCode)) (f32Exact (intTemp s.intCode))))
              s.seebeck)
            (f32Exact (intTemp s.intCode)))
          s.calOffset] })

/-- R167: on the fast path the reading is the binary32 rounding of T + X; it is T + X itself where a binary32 equals the sum, as
for every offset that is a multiple of 0.25 below 2^21; a zero sum is +0.0, also for +0.0 with offset -0.0; an infinite offset
gives that infinity and a NaN offset a quiet NaN (R166). -/
def Obligations.FastPathIsTheRoundedSum : Prop :=
  ∀ s : State, s.hasData = true → f32Eq s.seebeck s.params.nativeSeebeck = true →
    (f32IsFinite s.calOffset = true → RoundedTo (probeReading s) (probeTemp s.probeCode + f32Value s.calOffset)) ∧
    (f32IsFinite s.calOffset = true →
      (∃ x, f32IsFinite x = true ∧ f32Value x = probeTemp s.probeCode + f32Value s.calOffset) →
      f32Value (probeReading s) = probeTemp s.probeCode + f32Value s.calOffset) ∧
    (∀ n : ℤ, f32IsFinite s.calOffset = true → f32Value s.calOffset = (n : ℚ) / 4 → |(n : ℚ) / 4| < 2 ^ 21 →
      f32Value (probeReading s) = probeTemp s.probeCode + (n : ℚ) / 4) ∧
    (s.probeCode = 0#14 → s.calOffset = 0x80000000#32 → probeReading s = 0x00000000#32) ∧
    (f32IsFinite s.calOffset = true → probeTemp s.probeCode + f32Value s.calOffset = 0 → probeReading s = 0x00000000#32) ∧
    (f32IsInf s.calOffset = true → probeReading s = s.calOffset) ∧
    (f32IsNaN s.calOffset = true → IsQuietNaN (probeReading s))

/-- R168: the corners of the slow path. For a NaN, an infinite, a zero and an ordinary coefficient: which path is taken and what
the reading is; for a NaN and an infinite offset, what the reading is (R166); `v` is the implied voltage and `t3` the sum before
the offset. -/
def Obligations.SlowPathCorners : Prop :=
  ∀ (s : State) (i v t3 : F32), s.hasData = true →
    i = f32Exact (intTemp s.intCode) →
    v = f32Mul s.params.nativeSeebeck (f32Sub (f32Exact (probeTemp s.probeCode)) i) →
    t3 = f32Add (f32Div v s.seebeck) i →
    f32Eq s.seebeck s.params.nativeSeebeck = false →
    (f32IsNaN s.calOffset = true → IsQuietNaN (probeReading s)) ∧
    (f32IsInf s.calOffset = true → f32IsFinite t3 = true → probeReading s = s.calOffset) ∧
    (f32IsInf s.calOffset = true → probeReading s = s.calOffset ∨ IsQuietNaN (probeReading s)) ∧
    (f32IsNaN s.seebeck = true → IsQuietNaN (probeReading s)) ∧
    (f32IsInf s.seebeck = true → f32IsFinite v = true → probeReading s = f32Add i s.calOffset) ∧
    (f32IsZero s.seebeck = true → f32IsNaN v = false → f32IsZero v = false → f32IsFinite s.calOffset = true →
      probeReading s = f32Infinity (f32Sign v ^^ f32Sign s.seebeck)) ∧
    (f32IsZero s.seebeck = true → f32IsZero v = true → IsQuietNaN (probeReading s)) ∧
    (f32IsFinite s.seebeck = true → f32IsZero s.seebeck = false → f32IsFinite s.params.nativeSeebeck = true →
      probeTemp s.probeCode = intTemp s.intCode → probeReading s = f32Add i s.calOffset)

/-- R169: the offset is the last addend of the probe reading and of nothing else; GETIT applies neither it nor the coefficient,
and a READ transfers and decodes the same whatever the offset is. -/
def Obligations.OffsetIsAddedLastAndOnlyToTheProbe : Prop :=
  ∀ s : State, s.hasData = true →
    (∀ o : F32, readFrame { s with calOffset := o } = { readFrame s with calOffset := o }) ∧
    (∃ x : F32, ∀ o : F32, probeReading { s with calOffset := o } = f32Add x o) ∧
    (∀ o k : F32, ∃ w, exec .getit s = .next (s.respond w) ∧
      exec .getit { s with calOffset := o, seebeck := k } = .next ({ s with calOffset := o, seebeck := k }.respond w))

/-- R170: GETIT from its word to its effect, with the corners -128.0 and 1.5625. -/
def Obligations.GetitReturnsTheInternalTemperature : Prop :=
  (∀ c : Command, decode c = .ok .getit ↔ c = 0x3100000000000000#64) ∧
  OthersReserved 0x3100000000000000#64 0xFFFFFFFFFFFFFFFF#64 ∧
  (∀ s : State, s.hasData = false →
    exec .getit s = .next { s with responses := s.responses ++ [Config.noTemperature] }) ∧
  (∀ s : State, s.hasData = true →
    ∃ r, exec .getit s = .next { s with responses := s.responses ++ [r] } ∧
      r = f32Exact (intTemp s.intCode) ∧ f32Value r = intTemp s.intCode ∧
      (s.intCode = 0x800#12 → r = 0xC3000000#32) ∧ (s.intCode = 0x019#12 → r = 0x3FC80000#32))

/-- R171: GETST from its word to its effect: bit 8 is HAS_DATA, bits 7:0 are STATUS, the rest is 0; with the four words of the
rule. -/
def Obligations.GetstReturnsStatusAndHasData : Prop :=
  (∀ c : Command, decode c = .ok .getst ↔ c = 0x3200000000000000#64) ∧
  OthersReserved 0x3200000000000000#64 0xFFFFFFFFFFFFFFFF#64 ∧
  (∀ s : State, ∃ w : Word, exec .getst s = .next { s with responses := s.responses ++ [w] } ∧
    w.getLsbD 8 = s.hasData ∧ w.extractLsb' 0 8 = s.status ∧ w.toNat < 2 ^ 9) ∧
  (∀ s : State, s.hasData = false → s.status = 0x80#8 → exec .getst s = .next (s.respond 0x00000080#32)) ∧
  (∀ s : State, s.hasData = false → s.status = 0x81#8 → exec .getst s = .next (s.respond 0x00000081#32)) ∧
  (∀ s : State, s.hasData = true → s.status = 0x81#8 → exec .getst s = .next (s.respond 0x00000181#32))

/-- R172: GETTS from its word to its effect: it returns LAST_READ_TS, which is 0 until the first frame that is not the sentinel,
by the invariants of R39, and which a sentinel READ leaves. -/
def Obligations.GettsReturnsTheTimestamp : Prop :=
  (∀ c : Command, decode c = .ok .getts ↔ c = 0x3300000000000000#64) ∧
  OthersReserved 0x3300000000000000#64 0xFFFFFFFFFFFFFFFF#64 ∧
  (∀ s : State, exec .getts s = .next { s with responses := s.responses ++ [s.lastReadTs] }) ∧
  (∀ s : State, RegInv s → s.hasData = false → exec .getts s = .next (s.respond 0x00000000#32)) ∧
  (∀ s t : State, transferFrame s = Config.sentinel → exec .read s = .next t →
    exec .getts t = .next (t.respond s.lastReadTs))

/-- R179: a query writes no register, emits no event, draws nothing, and issued twice returns the same word; every command but
READ draws nothing. -/
def Obligations.QueriesHaveNoSideEffects : Prop :=
  (∀ (i : Instr) (s : State), (i = .getpt ∨ i = .getit ∨ i = .getst ∨ i = .getts) →
    ∃ w, exec i s = .next { s with responses := s.responses ++ [w] } ∧
      exec i { s with responses := s.responses ++ [w] } = .next { s with responses := s.responses ++ [w, w] }) ∧
  (∀ (i : Instr) (s t : State), i ≠ .read → exec i s = .next t →
    t.draws = s.draws ∧ t.pinAnswers = s.pinAnswers ∧ t.busAnswers = s.busAnswers ∧ t.nowAnswers = s.nowAnswers)

/-- R180 (derived in the spec): a reading can equal NO_TEMPERATURE; bit 8 of GETST tells it from no data. -/
def Obligations.NoTemperatureIsAlsoAReading : Prop :=
  ∀ s : State, s.hasData = true → s.probeCode = 0x3064#14 → s.calOffset = 0x00000000#32 →
    f32Eq s.seebeck s.params.nativeSeebeck = true →
    exec .getpt s = .next (s.respond Config.noTemperature) ∧
      exec .getpt { s with hasData := false } = .next ({ s with hasData := false }.respond Config.noTemperature) ∧
      ∃ w w' : Word, exec .getst s = .next (s.respond w) ∧
        exec .getst { s with hasData := false } = .next ({ s with hasData := false }.respond w') ∧
        w.getLsbD 8 = true ∧ w'.getLsbD 8 = false

/-! ## Setters (44_reader_commands.md R173 to R178) -/

/-- R173: SETOFS from its word to its effect: any bit pattern is stored unchanged, in every state; nothing else changes. -/
def Obligations.SetofsStoresTheOffset : Prop :=
  (∀ (c : Command) (o : F32), decode c = .ok (.setofs o) ↔ c = 0x40#8 ++ 0#8 ++ 0#8 ++ 0#8 ++ o) ∧
  OthersReserved 0x4000000000000000#64 0xFFFFFFFF00000000#64 ∧
  (∀ (o : F32) (s : State),
    exec (.setofs o) s = .next { s with calOffset := o, responses := s.responses ++ [0x00000000#32] })

/-- R174: SETSBK from its word to its effect: any bit pattern is stored unchanged; zero, negative and NaN coefficients take the
slow path where the native coefficient is positive, and the native pattern, which is no NaN, restores the fast path. -/
def Obligations.SetsbkStoresTheCoefficient : Prop :=
  (∀ (c : Command) (k : F32), decode c = .ok (.setsbk k) ↔ c = 0x41#8 ++ 0#8 ++ 0#8 ++ 0#8 ++ k) ∧
  OthersReserved 0x4100000000000000#64 0xFFFFFFFF00000000#64 ∧
  (∀ (k : F32) (s : State),
    exec (.setsbk k) s = .next { s with seebeck := k, responses := s.responses ++ [0x00000000#32] }) ∧
  (∀ (k : F32) (s : State), s.hasData = true →
    f32Sign s.params.nativeSeebeck = false → f32IsZero s.params.nativeSeebeck = false →
    (f32IsNaN k = true ∨ f32IsZero k = true ∨ f32Sign k = true) →
    probeReading { s with seebeck := k } = slowPath { s with seebeck := k }) ∧
  (∀ s : State, s.hasData = true → f32IsNaN s.params.nativeSeebeck = false →
    probeReading { s with seebeck := s.params.nativeSeebeck } = fastPath { s with seebeck := s.params.nativeSeebeck })

/-- R175: SETFRQ from its word to its effect: every u32 is stored unchanged, under either transport, and the next accelerated
READ opens its transaction at it. -/
def Obligations.SetfrqStoresTheFrequency : Prop :=
  (∀ (c : Command) (hz : Word), decode c = .ok (.setfrq hz) ↔ c = 0x42#8 ++ 0#8 ++ 0#8 ++ 0#8 ++ hz) ∧
  OthersReserved 0x4200000000000000#64 0xFFFFFFFF00000000#64 ∧
  (∀ (hz : Word) (s : State),
    exec (.setfrq hz) s = .next { s with spiFreqHz := hz, responses := s.responses ++ [0x00000000#32] }) ∧
  (∀ (hz : Word) (s : State), s.lifecycle = .configured → s.transport = .accel →
    ∃ t u, exec (.setfrq hz) s = .next t ∧ exec .read t = .next u ∧
      (u.trace.drop s.trace.length).head? = some (.busBeginTransaction s.busId hz .msbFirst s.params.spiMode)) ∧
  (∀ (hz : Word) (s : State), s.transport = .bitclk →
    transfer { s with spiFreqHz := hz } = ((transfer s).1, { (transfer s).2 with spiFreqHz := hz }))

/-- R176: SETDLY from its word to its effect: every u16 is stored unchanged; a word with nonzero IMM[31:16] is refused; the next
bit-clocked READ waits the low half before and the high half after each sample; 0 removes all delay events, odd values split
unevenly; under ACCEL the value is stored and unused. -/
def Obligations.SetdlyStoresTheDelay : Prop :=
  (∀ (c : Command) (us : BitVec 16), decode c = .ok (.setdly us) ↔ c = 0x43#8 ++ 0#8 ++ 0#8 ++ 0#8 ++ us.setWidth 32) ∧
  OthersReserved 0x4300000000000000#64 0xFFFFFFFFFFFF0000#64 ∧
  (∀ (us : BitVec 16) (s : State),
    exec (.setdly us) s = .next { s with bitDelayUs := us, responses := s.responses ++ [0x00000000#32] }) ∧
  (∀ (us : BitVec 16) (s : State), s.lifecycle = .configured → s.transport = .bitclk →
    ∃ t u events, exec (.setdly us) s = .next t ∧ exec .read t = .next u ∧ u.trace = s.trace ++ events ∧
      totalDelay events = 32 * us.toNat ∧
      events = .pinWrite s.pinCs .low ::
        ((List.range 32).flatMap (fun k =>
          .pinWrite s.pinClk .low :: ((if delayLow us = 0#16 then [] else [.delayUs (delayLow us)]) ++
            .pinRead s.pinData (s.pinAnswerAt k) :: .pinWrite s.pinClk .high ::
              (if delayHigh us = 0#16 then [] else [.delayUs (delayHigh us)]))) ++
          [.pinWrite s.pinCs .high])) ∧
  (∀ (s : State) (n : BitVec 16), .delayUs n ∉ (xferB { s with trace := [], bitDelayUs := 0#16 }).2.trace) ∧
  (∀ us : BitVec 16, us.toNat % 2 = 1 → (delayLow us).toNat = (delayHigh us).toNat + 1) ∧
  (∀ (us : BitVec 16) (s : State), s.transport = .accel →
    transfer { s with bitDelayUs := us } = ((transfer s).1, { (transfer s).2 with bitDelayUs := us }))

/-- R178: no setter changes the decoded fields or triggers a transfer, and a setter changes what GETPT returns only through
CAL_OFFSET and SEEBECK. -/
def Obligations.SettersKeepTheReading : Prop :=
  ∀ (i : Instr) (s : State), (i.opcode = .setofs ∨ i.opcode = .setsbk ∨ i.opcode = .setfrq ∨ i.opcode = .setdly) →
    ∃ t, exec i s = .next t ∧
      t.status = s.status ∧ t.hasData = s.hasData ∧ t.intCode = s.intCode ∧ t.probeCode = s.probeCode ∧
      t.lastReadTs = s.lastReadTs ∧ t.trace = s.trace ∧ t.draws = s.draws ∧
      probeReading { t with calOffset := s.calOffset, seebeck := s.seebeck } = probeReading s

/-! ## Whole-machine rules -/

/-- 10_state.md sections 4 and 5 and 20_memory.md section 5: only READ writes the cache and the status; every other step but a
reset leaves them. -/
def Obligations.OnlyReadWritesTheCache : Prop :=
  ∀ s t : State, step s = .next t → s.hostQueue.head? ≠ some .reset →
    (∀ c, s.hostQueue.head? = some (.command c) → decode c ≠ .ok .read) →
    t.status = s.status ∧ t.hasData = s.hasData ∧ t.intCode = s.intCode ∧ t.probeCode = s.probeCode ∧
      t.lastReadTs = s.lastReadTs

/-- 70 R232 (derived in the spec): every accepted command appends a bounded number of events: 3, 5, at most 162, or 0. In a run
whose collaborators return (R235), every interaction issues all its primitives, at most 162 and one timestamp, and so ends;
otherwise one that does not return is the last to be issued. That the run goes on after a refused input is the model's choice
(log 3), and so is that a hang is no step but the list `issued` (log 14). -/
def Obligations.EventsPerCommandAreBounded : Prop :=
  (∀ (i : Instr) (s t : State), exec i s = .next t →
    ∃ events, t.trace = s.trace ++ events ∧
      match i with
      | .initA _ _ => events.length = 3
      | .initB _ _ _ => events.length = 5
      | .read => events.length = 8 ∧ s.transport = .accel ∨ 98 ≤ events.length ∧ events.length ≤ 162 ∧ s.transport = .bitclk
      | .getpt => events = []
      | .getit => events = []
      | .getst => events = []
      | .getts => events = []
      | .setofs _ => events = []
      | .setsbk _ => events = []
      | .setfrq _ => events = []
      | .setdly _ => events = []) ∧
  (∀ (returns : Nat → Nat → Bool) (s : State) (n : Nat), CollaboratorsReturn returns s →
    issued (returns n) 0 (primitives (hostRun n s)) = primitives (hostRun n s) ∧
      (primitives (hostRun n s)).length ≤ 163) ∧
  (∀ (returns : Nat → Bool) (s : State) (i : Nat) (p : Primitive), (primitives s)[i]? = some p → p.waits = true →
    returns i = false → (issued returns 0 (primitives s)).length ≤ i + 1)

/-- 30_encoding.md R75: every accepted command returns one response word, the one of its row; a refused one returns none. -/
def Obligations.EveryAcceptedCommandRespondsOnce : Prop :=
  (∀ (i : Instr) (s t : State), exec i s = .next t →
    ∃ w : Word, t.responses = s.responses ++ [w] ∧
      match i with
      | .read => w = t.status.setWidth 32
      | .getpt => w = probeReading s
      | .getit => w = internalReading s
      | .getst => w.getLsbD 8 = s.hasData ∧ w.extractLsb' 0 8 = s.status ∧ w.extractLsb' 9 23 = 0#23
      | .getts => w = s.lastReadTs
      | .initA _ _ => w = 0x00000000#32
      | .initB _ _ _ => w = 0x00000000#32
      | .setofs _ => w = 0x00000000#32
      | .setsbk _ => w = 0x00000000#32
      | .setfrq _ => w = 0x00000000#32
      | .setdly _ => w = 0x00000000#32) ∧
  (∀ (s : State) (r : Refusal), step s = .refused r → (hostStep s).responses = s.responses)

/-- R181: an uninitialized block accepts every command but READ (an INIT.B with equal pins is ill formed): its queries answer as
after reset, by the invariants of R39, and what a setter stored holds after a later INIT. -/
def Obligations.UninitializedBlockAcceptsAllButRead : Prop :=
  ∀ s : State, RegInv s → s.lifecycle = .uninit →
    exec .read s = .refused .notInitialized ∧
    (∀ i : Instr, i ≠ .read → i.wellFormed = true → ∃ t, exec i s = .next t) ∧
    (∀ i : Instr, i.opcode = .initA ∨ i.opcode = .initB → i.wellFormed = true →
      ∃ t, exec i s = .next t ∧ t.lifecycle = .configured ∧ t.calOffset = s.calOffset ∧ t.seebeck = s.seebeck ∧
        t.spiFreqHz = s.spiFreqHz ∧ t.bitDelayUs = s.bitDelayUs) ∧
    exec .getpt s = .next (s.respond Config.noTemperature) ∧
    exec .getit s = .next (s.respond Config.noTemperature) ∧
    exec .getst s = .next (s.respond 0x00000080#32) ∧
    exec .getts s = .next (s.respond 0x00000000#32)

/-- R204: the refusal reasons are a closed list, and a command word gets the first that applies, in the order of the rule; where
none applies the step answers a next state. -/
def Obligations.RefusalsFollowTheirOrder : Prop :=
  ∀ (s : State) (c : Command) (rest : List HostInput), s.hostQueue = .command c :: rest →
    if opcodeOf (fieldOpc c) = none then step s = .refused .illegalOpcode
    else if ∀ r ∈ opcodeTable, r.selects c = false then step s = .refused .reservedField
    else if (fieldOpc c = 0x10#8 ∨ fieldOpc c = 0x11#8) ∧ s.lifecycle = .configured then step s = .refused .reinit
    else if fieldOpc c = 0x20#8 ∧ s.lifecycle = .uninit then step s = .refused .notInitialized
    else if fieldOpc c = 0x11#8 ∧ (fieldA c = fieldB c ∨ fieldA c = fieldC c ∨ fieldB c = fieldC c) then
      step s = .refused .pinConflict
    else ∃ t, step s = .next t

/-- 60 R203: once set, the refusal mark is kept for the rest of the run, resets included. That it is a field of the state, and
that the host's run goes on, is the model's choice (log 3). -/
def Obligations.RefusalMarkIsKept : Prop :=
  ∀ (n : Nat) (s : State) (r : Refusal), s.refusalMark = some r → (hostRun n s).refusalMark = some r

/-- 60 R203, 70 R235: a run that starts unmarked ends unmarked exactly when no step of it was refused, and then it is the run of
the machine as the host's interface has it. That the refusals are recorded in a run that goes on is the model's choice (log 3). -/
def Obligations.UnmarkedRunsAreTheRunsOfTheMachine : Prop :=
  ∀ (n : Nat) (s : State), NoRefusal s →
    (NoRefusal (hostRun n s) ↔ Host.Core.run core n s = .next (hostRun n s))

/-- 60 R210, 70 R230: an interaction with the k-th of several blocks is that block's own, leaves every other block as it was,
and sets, drives or samples no pin of another; there is one exactly where no pin belongs to two blocks before it and after it, and
then none does. That blocks are a list and that a missing step is `none` is the model's choice (log 14). -/
def Obligations.BlocksAreIndependent : Prop :=
  (∀ (blocks next : List State) (k : Nat), stepBlock blocks k = some next →
    next[k]? = blocks[k]?.map hostStep ∧ (∀ j, j ≠ k → next[j]? = blocks[j]?) ∧ linesExclusive next = true) ∧
  (∀ (blocks : List State) (k : Nat), linesExclusive blocks = true → linesExclusive (blocks.modify k hostStep) = true →
    ∃ next, stepBlock blocks k = some next) ∧
  (∀ (blocks next : List State) (j k : Nat) (a b : State), stepBlock blocks k = some next → j ≠ k →
    blocks[k]? = some a → blocks[j]? = some b →
    ∀ e ∈ (hostStep a).trace.drop a.trace.length, ∀ p, e.pin = some p → p ∉ b.ownedPins) ∧
  (∀ (blocks : List State) (j k m : Nat) (a b : State) (p : PinId), j ≠ k → blocks[j]? = some a → blocks[k]? = some b →
    p ∈ a.ownedPins → p ∈ b.ownedPins → stepBlock blocks m = none)

/-! ## Binary32 (00_scope.md R9) -/

/-- R9: on finite operands each of the four operations is the exact result rounded to nearest, ties to even, with its sign, and
overflows to infinity beyond the largest finite value and half a unit; an exact zero is signed by the signs of the
operands; `f32_eq` is false on NaN and true on zeros of either sign, and an exact
conversion is exact wherever a binary32 equals the rational. -/
def Obligations.Binary32OperationsRoundOnce : Prop :=
  (∀ a b : F32, f32IsFinite a = true → f32IsFinite b = true →
    RoundedTo (f32Add a b) (f32Value a + f32Value b) ∧
    RoundedTo (f32Sub a b) (f32Value a - f32Value b) ∧
    RoundedTo (f32Mul a b) (f32Value a * f32Value b) ∧
    (f32IsZero b = false → RoundedTo (f32Div a b) (f32Value a / f32Value b)) ∧
    (f32Value a + f32Value b = 0 → f32Add a b = f32Zero (f32Sign a && f32Sign b)) ∧
    (f32Value a - f32Value b = 0 → f32Sub a b = f32Zero (f32Sign a && !f32Sign b)) ∧
    (f32IsZero a = true ∨ f32IsZero b = true → f32Mul a b = f32Zero (f32Sign a ^^ f32Sign b)) ∧
    (f32IsZero a = true → f32IsZero b = false → f32Div a b = f32Zero (f32Sign a ^^ f32Sign b))) ∧
  (∀ a b : F32, f32Eq a b = true ↔
    f32IsNaN a = false ∧ f32IsNaN b = false ∧ (a = b ∨ f32IsZero a = true ∧ f32IsZero b = true)) ∧
  (∀ (q : ℚ) (x : F32), f32IsFinite x = true → f32Value x = q → f32Value (f32Exact q) = q)

/-- 92 D35: a native coefficient is nonzero and no NaN, so the fast-path test is equality of bit patterns. -/
def Obligations.FastPathTestIsBitEquality : Prop :=
  ∀ s : State, f32IsNaN s.params.nativeSeebeck = false → f32IsZero s.params.nativeSeebeck = false →
    (f32Eq s.seebeck s.params.nativeSeebeck = true ↔ s.seebeck = s.params.nativeSeebeck)

/-- R9 on the other operands: a NaN operand gives a quiet NaN, whichever (44 R167; 93 I-11); the sums and quotients of
infinities, zero times infinity and zero over zero give a quiet NaN where IEEE 754 has no value, and every other infinite operand
or zero divisor gives the infinity or the zero of the right sign. -/
def Obligations.Binary32SpecialOperands : Prop :=
  (∀ a b : F32, f32IsNaN a = true ∨ f32IsNaN b = true →
    IsQuietNaN (f32Add a b) ∧ IsQuietNaN (f32Sub a b) ∧ IsQuietNaN (f32Mul a b) ∧ IsQuietNaN (f32Div a b)) ∧
  (∀ a b : F32, f32IsInf a = true → f32IsInf b = true →
    (if f32Sign a = f32Sign b then f32Add a b = a ∧ IsQuietNaN (f32Sub a b)
      else IsQuietNaN (f32Add a b) ∧ f32Sub a b = a) ∧
    f32Mul a b = f32Infinity (f32Sign a ^^ f32Sign b) ∧ IsQuietNaN (f32Div a b)) ∧
  (∀ a b : F32, f32IsInf a = true → f32IsFinite b = true →
    f32Add a b = a ∧ f32Add b a = a ∧ f32Sub a b = a ∧ f32Sub b a = f32Infinity (!f32Sign a) ∧
    f32Div a b = f32Infinity (f32Sign a ^^ f32Sign b) ∧ f32Div b a = f32Zero (f32Sign b ^^ f32Sign a) ∧
    (if f32IsZero b = true then IsQuietNaN (f32Mul a b) ∧ IsQuietNaN (f32Mul b a)
      else f32Mul a b = f32Infinity (f32Sign a ^^ f32Sign b) ∧ f32Mul b a = f32Infinity (f32Sign b ^^ f32Sign a))) ∧
  (∀ a b : F32, f32IsFinite a = true → f32IsZero b = true →
    if f32IsZero a = true then IsQuietNaN (f32Div a b) else f32Div a b = f32Infinity (f32Sign a ^^ f32Sign b))
end

