-- ==== Sys2Proof/Laws/Decode.lean ====
section
/-! SUPPORT. The command word field by field, and what the decoder accepts. -/

namespace Sys2Proof
/-- The number that five fields write. -/
theorem commandWord_toNat (o a b c : BitVec 8) (w : BitVec 32) :
    (commandWord o a b c w).toNat = o.toNat * 2^56 + a.toNat * 2^48 + b.toNat * 2^40 + c.toNat * 2^32 + w.toNat := by
  unfold commandWord
  have h1 := o.isLt; have h2 := a.isLt; have h3 := b.isLt; have h4 := c.isLt; have h5 := w.isLt
  rw [BitVec.toNat_append, ← Nat.shiftLeft_add_eq_or_of_lt w.isLt, BitVec.toNat_append,
    ← Nat.shiftLeft_add_eq_or_of_lt c.isLt, BitVec.toNat_append, ← Nat.shiftLeft_add_eq_or_of_lt b.isLt,
    BitVec.toNat_append, ← Nat.shiftLeft_add_eq_or_of_lt a.isLt]
  simp only [Nat.shiftLeft_eq]
  omega

/-- The fields of a command word are the ones it was put together from. -/
theorem commandWord_fields (o a b c : BitVec 8) (w : BitVec 32) :
    fieldOpc (commandWord o a b c w) = o ∧ fieldA (commandWord o a b c w) = a ∧ fieldB (commandWord o a b c w) = b ∧
      fieldC (commandWord o a b c w) = c ∧ fieldImm (commandWord o a b c w) = w := by
  have h1 := o.isLt; have h2 := a.isLt; have h3 := b.isLt; have h4 := c.isLt; have h5 := w.isLt
  refine ⟨?_, ?_, ?_, ?_, ?_⟩ <;> apply BitVec.eq_of_toNat_eq <;>
    simp only [fieldOpc, fieldA, fieldB, fieldC, fieldImm, BitVec.extractLsb'_toNat, commandWord_toNat,
      Nat.shiftRight_eq_div_pow] <;> omega

/-- A command word is put together from its fields. -/
theorem commandWord_of_fields (c : Command) :
    commandWord (fieldOpc c) (fieldA c) (fieldB c) (fieldC c) (fieldImm c) = c := by
  apply BitVec.eq_of_toNat_eq
  have h := c.isLt
  simp only [fieldOpc, fieldA, fieldB, fieldC, fieldImm, BitVec.extractLsb'_toNat, commandWord_toNat,
      Nat.shiftRight_eq_div_pow]
  omega

/-- A bitwise and goes through an append. -/
theorem append_and_append {n m : Nat} (x x' : BitVec n) (y y' : BitVec m) :
    (x ++ y) &&& (x' ++ y') = (x &&& x') ++ (y &&& y') := by
  ext i hi
  simp only [BitVec.getElem_and, BitVec.getElem_append]
  split <;> simp

/-- A bitwise and of command words goes field by field. -/
theorem commandWord_and (o a b c o' a' b' c' : BitVec 8) (w w' : BitVec 32) :
    commandWord o a b c w &&& commandWord o' a' b' c' w' =
      commandWord (o &&& o') (a &&& a') (b &&& b') (c &&& c') (w &&& w') := by
  have h : (o ++ a ++ b ++ c ++ w : BitVec (8 + 8 + 8 + 8 + 32)) &&& (o' ++ a' ++ b' ++ c' ++ w') =
      (o &&& o') ++ (a &&& a') ++ (b &&& b') ++ (c &&& c') ++ (w &&& w') := by
    simp only [append_and_append]
  exact h

/-- Command words are equal when their fields are. -/
theorem commandWord_inj (o a b c o' a' b' c' : BitVec 8) (w w' : BitVec 32) :
    commandWord o a b c w = commandWord o' a' b' c' w' ↔ o = o' ∧ a = a' ∧ b = b' ∧ c = c' ∧ w = w' := by
  constructor
  · intro h
    obtain ⟨h1, h2, h3, h4, h5⟩ := commandWord_fields o a b c w
    obtain ⟨k1, k2, k3, k4, k5⟩ := commandWord_fields o' a' b' c' w'
    rw [h] at h1 h2 h3 h4 h5
    exact ⟨h1.symm.trans k1, h2.symm.trans k2, h3.symm.trans k3, h4.symm.trans k4, h5.symm.trans k5⟩
  · rintro ⟨rfl, rfl, rfl, rfl, rfl⟩; rfl


/-- The mask of the upper half tests the upper half. -/
theorem and_ffff0000 (w : BitVec 32) : w &&& 0xFFFF0000#32 = 0#32 ↔ w.extractLsb' 16 16 = 0#16 := by
  constructor
  · intro h
    apply BitVec.eq_of_getLsbD_eq
    intro i hi
    have := congrArg (fun x => x.getLsbD (16 + i)) h
    simp only [BitVec.getLsbD_and] at this
    rw [BitVec.getLsbD_extractLsb']
    have h2 : (0xFFFF0000#32).getLsbD (16 + i) = true := by
      have : ∀ j, j < 16 → (0xFFFF0000#32).getLsbD (16 + j) = true := by decide
      exact this i hi
    rw [h2] at this
    simpa [hi] using this
  · intro h
    apply BitVec.eq_of_getLsbD_eq
    intro i hi
    simp only [BitVec.getLsbD_and]
    by_cases h1 : i < 16
    · have : ∀ j, j < 16 → (0xFFFF0000#32).getLsbD j = false := by decide
      rw [this i h1]; simp
    · have := congrArg (fun x => x.getLsbD (i - 16)) h
      simp only [BitVec.getLsbD_extractLsb', show i - 16 < 16 by omega, show 16 + (i - 16) = i by omega] at this
      simp at this
      simp [this]

/-- An all-ones mask of 8 bits keeps the value. -/
theorem and_ff (x : BitVec 8) : x &&& 0xFF#8 = x := by
  have : (0xFF#8) = BitVec.allOnes 8 := by decide
  rw [this, BitVec.and_allOnes]
/-- An all-ones mask of 32 bits keeps the value. -/
theorem and_ffff (x : BitVec 32) : x &&& 0xFFFFFFFF#32 = x := by
  have : (0xFFFFFFFF#32) = BitVec.allOnes 32 := by decide
  rw [this, BitVec.and_allOnes]

/-- A row selects a word field by field. -/
theorem selects_eq (r : TableRow) (c : Command) : r.selects c = true ↔
    fieldOpc c &&& fieldOpc r.mask = fieldOpc r.pattern ∧ fieldA c &&& fieldA r.mask = fieldA r.pattern ∧
    fieldB c &&& fieldB r.mask = fieldB r.pattern ∧ fieldC c &&& fieldC r.mask = fieldC r.pattern ∧
    fieldImm c &&& fieldImm r.mask = fieldImm r.pattern := by
  rw [← commandWord_inj, ← commandWord_and, commandWord_of_fields, commandWord_of_fields, commandWord_of_fields]
  simp [TableRow.selects]

/-- Every opcode has a row. -/
theorem mem_opcodeTable (o : Opcode) : ∃ r ∈ opcodeTable, r.opcode = o := by cases o <;> decide

/-- A row's mask and pattern say what its opcode and reserved fields say (30 R76, R80). -/
theorem row_selects (r : TableRow) (hr : r ∈ opcodeTable) (c : Command) :
    r.selects c = true ↔ fieldOpc c = r.opcode.byte ∧ reservedZero r.opcode c = true := by
  rw [selects_eq]
  have hz8 : ∀ x : BitVec 8, x &&& 0#8 = 0#8 := fun x => BitVec.and_zero
  have hz32 : ∀ x : BitVec 32, x &&& 0#32 = 0#32 := fun x => BitVec.and_zero
  have himm : fieldImmHigh c = (fieldImm c).extractLsb' 16 16 := by
    apply BitVec.eq_of_toNat_eq
    simp only [fieldImmHigh, fieldImm, BitVec.extractLsb'_toNat, Nat.shiftRight_eq_div_pow]
    omega
  simp only [opcodeTable, List.mem_cons, List.not_mem_nil, or_false] at hr
  rcases hr with rfl | rfl | rfl | rfl | rfl | rfl | rfl | rfl | rfl | rfl | rfl
  all_goals simp only [fieldOpc, fieldA, fieldB, fieldC, fieldImm, Opcode.byte, reservedZero] at *
  all_goals simp [himm, and_assoc, and_ff, and_ffff, and_ffff0000]

/-- Each assigned opcode byte names its own command. -/
@[simp] theorem opcodeOf_byte (o : Opcode) : opcodeOf o.byte = some o := by cases o <;> decide

/-- An opcode found is the one whose byte was looked up. -/
theorem opcodeOf_some (b : BitVec 8) (o : Opcode) (h : opcodeOf b = some o) : o.byte = b := by
  simpa using List.find?_some h

/-- A command is decoded exactly from the words whose opcode is its own and whose reserved fields are zero. -/
theorem decode_ok_iff (c : Command) (i : Instr) :
    decode c = .ok i ↔ ∃ o : Opcode, o.byte = fieldOpc c ∧ reservedZero o c = true ∧ assemble o c = i := by
  unfold decode
  constructor
  · intro h
    split at h
    · cases h
    · next o ho =>
      split at h
      · next hz => exact ⟨o, opcodeOf_some _ _ ho, hz, by injection h⟩
      · cases h
  · rintro ⟨o, hb, hz, rfl⟩
    rw [← hb, opcodeOf_byte]
    simp [hz]

end Sys2Proof
end

