-- ==== Sys2Proof/Laws/F32.lean ====
section
/-! SUPPORT. What binary32 rounding does: the exponent it finds, the significand it picks, the value its bits stand for. -/

namespace Sys2Proof.Machine

/-- `floorLog2` brackets a positive rational between two powers of two. -/
theorem floorLog2_spec (q : ℚ) (hq : 0 < q) :
    (2 : ℚ) ^ floorLog2 q ≤ q ∧ q < (2 : ℚ) ^ (floorLog2 q + 1) := by
  have hn : 0 < q.num.natAbs := by have := Rat.num_pos.mpr hq; omega
  have hd : 0 < q.den := q.den_pos
  have hqe : q = (q.num.natAbs : ℚ) / (q.den : ℚ) := by
    have h1 : ((q.num.natAbs : ℤ) : ℚ) = (q.num : ℚ) := by
      rw [Int.natAbs_of_nonneg (Rat.num_pos.mpr hq).le]
    rw [← Int.cast_natCast, h1, Rat.num_div_den]
  set n := q.num.natAbs
  set d := q.den
  have a1 : ((2 : ℚ) ^ (Nat.log2 n)) ≤ n := by exact_mod_cast Nat.log2_self_le (by omega)
  have a2 : (n : ℚ) < (2 : ℚ) ^ (Nat.log2 n + 1) := by exact_mod_cast Nat.lt_log2_self
  have b1 : ((2 : ℚ) ^ (Nat.log2 d)) ≤ d := by exact_mod_cast Nat.log2_self_le (by omega)
  have b2 : (d : ℚ) < (2 : ℚ) ^ (Nat.log2 d + 1) := by exact_mod_cast Nat.lt_log2_self
  have hdq : (0 : ℚ) < d := by exact_mod_cast hd
  have up : q < (2 : ℚ) ^ ((Nat.log2 n : ℤ) - Nat.log2 d + 1) := by
    rw [hqe, div_lt_iff₀ hdq]
    calc (n : ℚ) < (2 : ℚ) ^ (Nat.log2 n + 1) := a2
      _ = (2 : ℚ) ^ ((Nat.log2 n : ℤ) - Nat.log2 d + 1) * (2 : ℚ) ^ (Nat.log2 d) := by
        rw [← zpow_natCast, ← zpow_natCast, ← zpow_add₀ two_ne_zero]; congr 1; push_cast; ring
      _ ≤ _ := by gcongr
  have lo : (2 : ℚ) ^ ((Nat.log2 n : ℤ) - Nat.log2 d - 1) ≤ q := by
    rw [hqe, le_div_iff₀ hdq]
    calc (2 : ℚ) ^ ((Nat.log2 n : ℤ) - Nat.log2 d - 1) * d
        ≤ (2 : ℚ) ^ ((Nat.log2 n : ℤ) - Nat.log2 d - 1) * (2 : ℚ) ^ (Nat.log2 d + 1) := by gcongr
      _ = (2 : ℚ) ^ (Nat.log2 n) := by
        rw [← zpow_natCast, ← zpow_natCast, ← zpow_add₀ two_ne_zero]; congr 1; push_cast; ring
      _ ≤ n := a1
  simp only [floorLog2]
  split
  · next h => exact ⟨h, up⟩
  · next h => exact ⟨lo, by simpa using h⟩

/-- `roundHalfEven` is within one half. -/
theorem roundHalfEven_near (x : ℚ) (hx : 0 ≤ x) : |(roundHalfEven x : ℚ) - x| ≤ 1 / 2 := by
  have hn : 0 ≤ x.num := Rat.num_nonneg.mpr hx
  have hf : ((x.num.natAbs / x.den : ℕ) : ℚ) ≤ x ∧ x < ((x.num.natAbs / x.den : ℕ) : ℚ) + 1 := by
    have hd : (0 : ℚ) < x.den := by exact_mod_cast x.den_pos
    have hqe : x = (x.num.natAbs : ℚ) / (x.den : ℚ) := by
      have h1 : ((x.num.natAbs : ℤ) : ℚ) = (x.num : ℚ) := by rw [Int.natAbs_of_nonneg hn]
      rw [← Int.cast_natCast, h1, Rat.num_div_den]
    have hm := Nat.div_add_mod x.num.natAbs x.den
    have hl := Nat.mod_lt x.num.natAbs x.den_pos
    constructor
    · conv_rhs => rw [hqe]
      rw [le_div_iff₀ hd]
      exact_mod_cast Nat.div_mul_le_self _ _
    · conv_lhs => rw [hqe]
      rw [div_lt_iff₀ hd]
      have : x.num.natAbs < (x.num.natAbs / x.den + 1) * x.den := by rw [add_mul, mul_comm]; omega
      exact_mod_cast this
  simp only [roundHalfEven]
  generalize x.num.natAbs / x.den = f at *
  obtain ⟨h1, h2⟩ := hf
  rw [abs_le]
  split
  · constructor <;> linarith
  · split
    · push_cast; constructor <;> linarith
    · split
      · constructor <;> linarith
      · push_cast; constructor <;> linarith

/-- No integer is nearer than `roundHalfEven`. -/
theorem roundHalfEven_nearest (x : ℚ) (hx : 0 ≤ x) (z : ℤ) : |(roundHalfEven x : ℚ) - x| ≤ |(z : ℚ) - x| := by
  have h := roundHalfEven_near x hx
  by_cases hz : z = (roundHalfEven x : ℤ)
  · rw [hz]; simp
  · have h1 : (1 : ℚ) ≤ |(z : ℚ) - (roundHalfEven x : ℚ)| := by
      have : (1 : ℤ) ≤ |z - (roundHalfEven x : ℤ)| := Int.one_le_abs (by omega)
      exact_mod_cast this
    have h2 : |(z : ℚ) - roundHalfEven x| ≤ |(z : ℚ) - x| + |(roundHalfEven x : ℚ) - x| := by
      have := abs_sub_le (z : ℚ) x (roundHalfEven x : ℚ)
      rwa [abs_sub_comm x] at this
    linarith

/-- The number that a sign and 31 bits write. -/
theorem f32OfParts_toNat (neg : Bool) (m : BitVec 31) : (f32OfParts neg m).toNat = neg.toNat * 2 ^ 31 + m.toNat := by
  unfold f32OfParts
  rw [BitVec.toNat_append, ← Nat.shiftLeft_add_eq_or_of_lt m.isLt, Nat.shiftLeft_eq]
  cases neg <;> simp

/-- The fields of a binary32 put together from sign, exponent and fraction. -/
theorem f32OfParts_fields (neg : Bool) (e f : Nat) (he : e < 256) (hf : f < 2 ^ 23) :
    let x := f32OfParts neg (BitVec.ofNat 31 (e * 2 ^ 23 + f))
    f32Sign x = neg ∧ f32Exponent x = e ∧ f32Fraction x = f := by
  have hn := f32OfParts_toNat neg (BitVec.ofNat 31 (e * 2 ^ 23 + f))
  rw [BitVec.toNat_ofNat, Nat.mod_eq_of_lt (by omega)] at hn
  refine ⟨?_, ?_, ?_⟩
  · rw [f32Sign, BitVec.msb_eq_decide, hn]
    cases neg
    · simp
      omega
    · simp
  · simp only [f32Exponent, BitVec.extractLsb'_toNat, hn, Nat.shiftRight_eq_div_pow]
    cases neg <;> simp <;> omega
  · simp only [f32Fraction, BitVec.extractLsb'_toNat, hn, Nat.shiftRight_eq_div_pow]
    cases neg <;> simp <;> omega

/-- The value of the bits that rounding writes: significand `m` at the quantum 2^(k - 149). -/
theorem f32Value_bits (neg : Bool) (k m : Nat) (hm : m ≤ 2 ^ 24) (hk : k = 0 ∨ 2 ^ 23 ≤ m)
    (hb : k * 2 ^ 23 + m < 0x7F800000) :
    let x := f32OfParts neg (BitVec.ofNat 31 (k * 2 ^ 23 + m))
    f32IsFinite x = true ∧ f32Sign x = neg ∧
      f32Value x = (if neg then -1 else 1) * (m : ℚ) * (2 : ℚ) ^ ((k : ℤ) - 149) := by
  obtain ⟨e, f, hef, he, hf, hval⟩ : ∃ e f : Nat, k * 2 ^ 23 + m = e * 2 ^ 23 + f ∧ e < 255 ∧ f < 2 ^ 23 ∧
      ((if e = 0 then f else 2 ^ 23 + f : Nat) : ℚ) * (2 : ℚ) ^ (((max e 1 : ℕ) : ℤ) - 150) =
        (m : ℚ) * (2 : ℚ) ^ ((k : ℤ) - 149) := by
    rcases Nat.lt_or_ge m (2 ^ 23) with h | h
    · have hk0 : k = 0 := by omega
      subst hk0
      exact ⟨0, m, by simp, by omega, h, by simp⟩
    rcases Nat.lt_or_ge m (2 ^ 24) with h' | h'
    · refine ⟨k + 1, m - 2 ^ 23, by omega, by omega, by omega, ?_⟩
      rw [if_neg (by omega), Nat.max_eq_left (by omega), show 2 ^ 23 + (m - 2 ^ 23) = m by omega]
      congr 2
      push_cast; ring
    · have hm' : m = 2 ^ 24 := by omega
      subst hm'
      refine ⟨k + 2, 0, by omega, by omega, by omega, ?_⟩
      rw [if_neg (by omega), Nat.max_eq_left (by omega)]
      rw [show (((k + 2 : ℕ) : ℤ) - 150) = ((k : ℤ) - 149) + 1 by push_cast; ring, zpow_add₀ two_ne_zero]
      push_cast; ring
  obtain ⟨h1, h2, h3⟩ := f32OfParts_fields neg e f (by omega) hf
  rw [hef]
  refine ⟨?_, h1, ?_⟩
  · simp only [f32IsFinite, h2]
    simp
    omega
  · simp only [f32Value, f32Significand, f32Quantum, h1, h2, h3]
    rw [mul_assoc, hval, mul_assoc]

/-- Every finite value is a count of at most 24 bits of a power of two no less than 2^-149. -/
theorem f32Value_form (x : F32) :
    ∃ (n : ℤ) (h : ℤ), |n| < 2 ^ 24 ∧ -149 ≤ h ∧ f32Value x = (n : ℚ) * (2 : ℚ) ^ h := by
  have hs : f32Significand x < 2 ^ 24 := by
    have : f32Fraction x < 2 ^ 23 := (x.extractLsb' 0 23).isLt
    unfold f32Significand
    split <;> omega
  refine ⟨(if f32Sign x then -1 else 1) * (f32Significand x : ℤ), f32Quantum x, ?_, ?_, ?_⟩
  · cases f32Sign x <;> simp <;> exact_mod_cast hs
  · unfold f32Quantum
    have : 1 ≤ max (f32Exponent x) 1 := le_max_right _ _
    push_cast
    omega
  · unfold f32Value
    push_cast
    cases f32Sign x <;> simp

/-- The significand that rounding picks has at most 24 bits, and all 24 above the least exponent. -/
theorem roundHalfEven_significand (q : ℚ) (hq : 0 < q) :
    roundHalfEven (q / (2 : ℚ) ^ (max (-149) (floorLog2 q - 23))) ≤ 2 ^ 24 ∧
      ((max (-149) (floorLog2 q - 23) + 149).toNat = 0 ∨
        2 ^ 23 ≤ roundHalfEven (q / (2 : ℚ) ^ (max (-149) (floorLog2 q - 23)))) := by
  obtain ⟨hl, hu⟩ := floorLog2_spec q hq
  set g := max (-149) (floorLog2 q - 23) with hg
  have hg1 : floorLog2 q - 23 ≤ g := le_max_right _ _
  have hp : (0 : ℚ) < (2 : ℚ) ^ g := by positivity
  have hx : 0 ≤ q / (2 : ℚ) ^ g := by positivity
  have hn := roundHalfEven_nearest _ hx
  have hxu : q / (2 : ℚ) ^ g < 2 ^ 24 := by
    rw [div_lt_iff₀ hp]
    calc q < (2 : ℚ) ^ (floorLog2 q + 1) := hu
      _ ≤ (2 : ℚ) ^ (24 + g) := zpow_le_zpow_right₀ (by norm_num) (by omega)
      _ = _ := by rw [zpow_add₀ two_ne_zero]; norm_num
  constructor
  · by_contra hc
    have h1 := hn (2 ^ 24)
    have h2 : ((2 : ℚ) ^ 24 + 1) ≤ (roundHalfEven (q / (2 : ℚ) ^ g) : ℚ) := by exact_mod_cast (by omega)
    push_cast at h1
    rw [abs_of_pos (by linarith), abs_of_pos (by linarith)] at h1
    linarith
  · rcases le_or_gt (floorLog2 q - 23) (-149) with h | h
    · left; rw [hg, max_eq_left h]; rfl
    · right
      have hge : g = floorLog2 q - 23 := max_eq_right h.le
      have hxl : (2 : ℚ) ^ 23 ≤ q / (2 : ℚ) ^ g := by
        rw [le_div_iff₀ hp]
        calc (2 : ℚ) ^ 23 * (2 : ℚ) ^ g = (2 : ℚ) ^ (floorLog2 q) := by
              rw [hge, ← zpow_natCast, ← zpow_add₀ two_ne_zero]; congr 1; push_cast; ring
          _ ≤ q := hl
      by_contra hc
      have h1 := hn (2 ^ 23)
      have h2 : (roundHalfEven (q / (2 : ℚ) ^ g) : ℚ) + 1 ≤ (2 : ℚ) ^ 23 := by exact_mod_cast (by omega)
      push_cast at h1
      rw [abs_of_neg (by linarith), abs_of_nonpos (by linarith)] at h1
      linarith

/-- An infinity is not finite. -/
theorem f32Infinity_not_finite (neg : Bool) : f32IsFinite (f32Infinity neg) = false := by
  cases neg <;> decide

/-- Rounding once: a finite result is the picked significand at the picked quantum. -/
theorem f32Round_value (z : Bool) (q : ℚ) (hq : q ≠ 0) (hfin : f32IsFinite (f32Round z q) = true) :
    f32Value (f32Round z q) = (if q < 0 then -1 else 1) *
      (roundHalfEven (|q| / (2 : ℚ) ^ (max (-149) (floorLog2 |q| - 23))) : ℚ) * (2 : ℚ) ^ (max (-149) (floorLog2 |q| - 23)) := by
  obtain ⟨hm, hk⟩ := roundHalfEven_significand |q| (abs_pos.mpr hq)
  revert hfin
  simp only [f32Round, if_neg hq, f32MagnitudeBits]
  split
  · intro hfin
    rw [show f32OfParts (decide (q < 0)) 0x7F800000#31 = f32Infinity (decide (q < 0)) from rfl, f32Infinity_not_finite] at hfin
    cases hfin
  · next hb =>
    intro _
    obtain ⟨_, _, hv⟩ := f32Value_bits (decide (q < 0)) _ _ hm hk (by omega)
    rw [hv]
    have : (((max (-149) (floorLog2 |q| - 23) + 149).toNat : ℤ) - 149) = max (-149) (floorLog2 |q| - 23) := by
      have : (-149 : ℤ) ≤ max (-149) (floorLog2 |q| - 23) := le_max_left _ _
      omega
    rw [this]
    simp

/-- A finite value is no NaN and no infinity. -/
theorem f32_finite_cases (a : F32) (h : f32IsFinite a = true) : f32IsNaN a = false ∧ f32IsInf a = false := by
  simp [f32IsFinite] at h
  simp [f32IsNaN, f32IsInf, h]

/-- Flipping the sign bit negates the value and keeps it finite. -/
theorem f32Neg_value (b : F32) : f32Value (f32Neg b) = -f32Value b ∧ f32IsFinite (f32Neg b) = f32IsFinite b := by
  have low (start len : Nat) (h : start + len ≤ 31) : (f32Neg b).extractLsb' start len = b.extractLsb' start len := by
    apply BitVec.eq_of_getLsbD_eq
    intro i hi
    have off : ∀ j, j < 31 → (0x80000000#32).getLsbD j = false := by decide
    simp [f32Neg, BitVec.getLsbD_xor, hi, off (start + i) (by omega)]
  have he : f32Exponent (f32Neg b) = f32Exponent b := by rw [f32Exponent, low 23 8 (by omega), f32Exponent]
  have hf : f32Fraction (f32Neg b) = f32Fraction b := by rw [f32Fraction, low 0 23 (by omega), f32Fraction]
  have hs : f32Sign (f32Neg b) = !f32Sign b := by
    simp only [f32Sign, f32Neg, BitVec.msb_xor]
    rw [show (0x80000000#32).msb = true by decide]
    simp
  constructor
  · simp only [f32Value, f32Significand, f32Quantum, he, hf, hs]
    cases f32Sign b <;> simp <;> split <;> ring
  · simp [f32IsFinite, he]

/-- On finite operands an addition is one rounding of the exact sum. -/
theorem f32Add_finite (a b : F32) (ha : f32IsFinite a = true) (hb : f32IsFinite b = true) :
    f32Add a b = f32Round (f32Sign a && f32Sign b) (f32Value a + f32Value b) := by
  simp [f32Add, f32Sum, f32_finite_cases a ha, f32_finite_cases b hb]

/-- On finite operands a subtraction is one rounding of the exact difference. -/
theorem f32Sub_finite (a b : F32) (ha : f32IsFinite a = true) (hb : f32IsFinite b = true) :
    f32Sub a b = f32Round (f32Sign a && f32Sign (f32Neg b)) (f32Value a - f32Value b) := by
  obtain ⟨hv, hf⟩ := f32Neg_value b
  rw [hb] at hf
  simp [f32Sub, f32Sum, f32_finite_cases a ha, f32_finite_cases b hb, (f32_finite_cases _ hf).2, hv, sub_eq_add_neg]

/-- On finite operands a multiplication is one rounding of the exact product. -/
theorem f32Mul_finite (a b : F32) (ha : f32IsFinite a = true) (hb : f32IsFinite b = true) :
    f32Mul a b = f32Round (f32Sign a ^^ f32Sign b) (f32Value a * f32Value b) := by
  simp [f32Mul, f32_finite_cases a ha, f32_finite_cases b hb]

/-- On finite operands with a nonzero divisor a division is one rounding of the exact quotient. -/
theorem f32Div_finite (a b : F32) (ha : f32IsFinite a = true) (hb : f32IsFinite b = true) (hz : f32IsZero b = false) :
    f32Div a b = f32Round (f32Sign a ^^ f32Sign b) (f32Value a / f32Value b) := by
  simp [f32Div, f32_finite_cases a ha, f32_finite_cases b hb, hz]

end Sys2Proof.Machine
end

