-- ==== Sys2Proof/Laws/PerInstr.lean ====
section
/-! SUPPORT. Laws per command: the word of every command is selected by its own row of spec/opcode_table.json
(30_encoding.md R76, R80). -/

namespace Sys2Proof.Laws.RowSelected

/-- Some row of the table with this command's opcode selects its word. -/
def Statement (i : Instr) : Prop := ∃ r ∈ opcodeTable, r.opcode = i.opcode ∧ r.selects (encode i) = true

/-- A word with its own opcode byte and zero reserved fields is selected by its row. -/
theorem statement_of_fields (i : Instr) (ho : fieldOpc (encode i) = i.opcode.byte)
    (hz : reservedZero i.opcode (encode i) = true) : Statement i := by
  obtain ⟨r, hr, hro⟩ := mem_opcodeTable i.opcode
  exact ⟨r, hr, hro, (row_selects r hr _).mpr (by rw [hro]; exact ⟨ho, hz⟩)⟩

/-- The upper half of a u16 operand's word is zero. -/
theorem fieldImmHigh_setdly (o a b c : BitVec 8) (us : BitVec 16) :
    fieldImmHigh (commandWord o a b c (us.setWidth 32)) = 0#16 := by
  apply BitVec.eq_of_toNat_eq
  have h := us.isLt
  simp only [fieldImmHigh, BitVec.extractLsb'_toNat, commandWord_toNat, Nat.shiftRight_eq_div_pow, BitVec.toNat_setWidth]
  simp
  omega

theorem initA (cs : PinId) (bus : BusId) : Statement (.initA cs bus) := by
  obtain ⟨ho, _, _, hc, hw⟩ := commandWord_fields 0x10#8 cs bus 0#8 0#32
  exact statement_of_fields _ ho (by simp [reservedZero, Instr.opcode, encode, Opcode.byte, hc, hw])

theorem initB (cs clk data : PinId) : Statement (.initB cs clk data) := by
  obtain ⟨ho, _, _, _, hw⟩ := commandWord_fields 0x11#8 cs clk data 0#32
  exact statement_of_fields _ ho (by simp [reservedZero, Instr.opcode, encode, Opcode.byte, hw])

theorem read : Statement (.read) := by
  obtain ⟨ho, ha, hb, hc, hw⟩ := commandWord_fields 0x20#8 0#8 0#8 0#8 0#32
  exact statement_of_fields _ ho (by simp [reservedZero, Instr.opcode, encode, Opcode.byte, ha, hb, hc, hw])

theorem getpt : Statement (.getpt) := by
  obtain ⟨ho, ha, hb, hc, hw⟩ := commandWord_fields 0x30#8 0#8 0#8 0#8 0#32
  exact statement_of_fields _ ho (by simp [reservedZero, Instr.opcode, encode, Opcode.byte, ha, hb, hc, hw])

theorem getit : Statement (.getit) := by
  obtain ⟨ho, ha, hb, hc, hw⟩ := commandWord_fields 0x31#8 0#8 0#8 0#8 0#32
  exact statement_of_fields _ ho (by simp [reservedZero, Instr.opcode, encode, Opcode.byte, ha, hb, hc, hw])

theorem getst : Statement (.getst) := by
  obtain ⟨ho, ha, hb, hc, hw⟩ := commandWord_fields 0x32#8 0#8 0#8 0#8 0#32
  exact statement_of_fields _ ho (by simp [reservedZero, Instr.opcode, encode, Opcode.byte, ha, hb, hc, hw])

theorem getts : Statement (.getts) := by
  obtain ⟨ho, ha, hb, hc, hw⟩ := commandWord_fields 0x33#8 0#8 0#8 0#8 0#32
  exact statement_of_fields _ ho (by simp [reservedZero, Instr.opcode, encode, Opcode.byte, ha, hb, hc, hw])

theorem setofs (offset : F32) : Statement (.setofs offset) := by
  obtain ⟨ho, ha, hb, hc, _⟩ := commandWord_fields 0x40#8 0#8 0#8 0#8 offset
  exact statement_of_fields _ ho (by simp [reservedZero, Instr.opcode, encode, Opcode.byte, ha, hb, hc])

theorem setsbk (coeff : F32) : Statement (.setsbk coeff) := by
  obtain ⟨ho, ha, hb, hc, _⟩ := commandWord_fields 0x41#8 0#8 0#8 0#8 coeff
  exact statement_of_fields _ ho (by simp [reservedZero, Instr.opcode, encode, Opcode.byte, ha, hb, hc])

theorem setfrq (hz : Word) : Statement (.setfrq hz) := by
  obtain ⟨ho, ha, hb, hc, _⟩ := commandWord_fields 0x42#8 0#8 0#8 0#8 hz
  exact statement_of_fields _ ho (by simp [reservedZero, Instr.opcode, encode, Opcode.byte, ha, hb, hc])

theorem setdly (us : BitVec 16) : Statement (.setdly us) := by
  obtain ⟨ho, ha, hb, hc, _⟩ := commandWord_fields 0x43#8 0#8 0#8 0#8 (us.setWidth 32)
  exact statement_of_fields _ ho (by simp [reservedZero, Instr.opcode, encode, Opcode.byte, ha, hb, hc, fieldImmHigh_setdly])

end Sys2Proof.Laws.RowSelected
end

