-- ==== Sys2Proof/Laws/State.lean ====
section
/-! SUPPORT. One lemma per field per update: what each primitive of Ops.lean leaves in each field of State. -/

namespace Sys2Proof.Machine

variable (s : State)

/-! Appending an event. -/

@[simp] theorem emit_lifecycle (e : Event) : (s.emit e).lifecycle = s.lifecycle := rfl
@[simp] theorem emit_transport (e : Event) : (s.emit e).transport = s.transport := rfl
@[simp] theorem emit_pinCs (e : Event) : (s.emit e).pinCs = s.pinCs := rfl
@[simp] theorem emit_pinClk (e : Event) : (s.emit e).pinClk = s.pinClk := rfl
@[simp] theorem emit_pinData (e : Event) : (s.emit e).pinData = s.pinData := rfl
@[simp] theorem emit_busId (e : Event) : (s.emit e).busId = s.busId := rfl
@[simp] theorem emit_spiFreqHz (e : Event) : (s.emit e).spiFreqHz = s.spiFreqHz := rfl
@[simp] theorem emit_bitDelayUs (e : Event) : (s.emit e).bitDelayUs = s.bitDelayUs := rfl
@[simp] theorem emit_calOffset (e : Event) : (s.emit e).calOffset = s.calOffset := rfl
@[simp] theorem emit_seebeck (e : Event) : (s.emit e).seebeck = s.seebeck := rfl
@[simp] theorem emit_status (e : Event) : (s.emit e).status = s.status := rfl
@[simp] theorem emit_hasData (e : Event) : (s.emit e).hasData = s.hasData := rfl
@[simp] theorem emit_intCode (e : Event) : (s.emit e).intCode = s.intCode := rfl
@[simp] theorem emit_probeCode (e : Event) : (s.emit e).probeCode = s.probeCode := rfl
@[simp] theorem emit_lastReadTs (e : Event) : (s.emit e).lastReadTs = s.lastReadTs := rfl
@[simp] theorem emit_lineCs (e : Event) : (s.emit e).lineCs = s.lineCs := rfl
@[simp] theorem emit_lineClk (e : Event) : (s.emit e).lineClk = s.lineClk := rfl
@[simp] theorem emit_trace (e : Event) : (s.emit e).trace = s.trace ++ [e] := rfl
@[simp] theorem emit_params (e : Event) : (s.emit e).params = s.params := rfl
@[simp] theorem emit_responses (e : Event) : (s.emit e).responses = s.responses := rfl
@[simp] theorem emit_refusalMark (e : Event) : (s.emit e).refusalMark = s.refusalMark := rfl
@[simp] theorem emit_hostQueue (e : Event) : (s.emit e).hostQueue = s.hostQueue := rfl
@[simp] theorem emit_pinAnswers (e : Event) : (s.emit e).pinAnswers = s.pinAnswers := rfl
@[simp] theorem emit_busAnswers (e : Event) : (s.emit e).busAnswers = s.busAnswers := rfl
@[simp] theorem emit_nowAnswers (e : Event) : (s.emit e).nowAnswers = s.nowAnswers := rfl
@[simp] theorem emit_draws (e : Event) : (s.emit e).draws = s.draws := rfl

/-- `pinMode` appends its event and does nothing else. -/
@[simp] theorem pinMode_eq_emit (p : PinId) (d : PinDirection) : s.pinMode p d = s.emit (.pinMode p d) := rfl

/-- `busBegin` appends its event and does nothing else. -/
@[simp] theorem busBegin_eq_emit (bus : BusId) : s.busBegin bus = s.emit (.busBegin bus) := rfl

/-- `busBeginTransaction` appends its event and does nothing else. -/
@[simp] theorem busBeginTransaction_eq_emit (bus : BusId) (hz : Word) (m : BitVec 2) : s.busBeginTransaction bus hz m = s.emit (.busBeginTransaction bus hz .msbFirst m) := rfl

/-- `busEndTransaction` appends its event and does nothing else. -/
@[simp] theorem busEndTransaction_eq_emit (bus : BusId) : s.busEndTransaction bus = s.emit (.busEndTransaction bus) := rfl

/-! Driving chip-select. -/

@[simp] theorem driveCs_lifecycle (p : PinId) (l : Level) : (s.driveCs p l).lifecycle = s.lifecycle := rfl
@[simp] theorem driveCs_transport (p : PinId) (l : Level) : (s.driveCs p l).transport = s.transport := rfl
@[simp] theorem driveCs_pinCs (p : PinId) (l : Level) : (s.driveCs p l).pinCs = s.pinCs := rfl
@[simp] theorem driveCs_pinClk (p : PinId) (l : Level) : (s.driveCs p l).pinClk = s.pinClk := rfl
@[simp] theorem driveCs_pinData (p : PinId) (l : Level) : (s.driveCs p l).pinData = s.pinData := rfl
@[simp] theorem driveCs_busId (p : PinId) (l : Level) : (s.driveCs p l).busId = s.busId := rfl
@[simp] theorem driveCs_spiFreqHz (p : PinId) (l : Level) : (s.driveCs p l).spiFreqHz = s.spiFreqHz := rfl
@[simp] theorem driveCs_bitDelayUs (p : PinId) (l : Level) : (s.driveCs p l).bitDelayUs = s.bitDelayUs := rfl
@[simp] theorem driveCs_calOffset (p : PinId) (l : Level) : (s.driveCs p l).calOffset = s.calOffset := rfl
@[simp] theorem driveCs_seebeck (p : PinId) (l : Level) : (s.driveCs p l).seebeck = s.seebeck := rfl
@[simp] theorem driveCs_status (p : PinId) (l : Level) : (s.driveCs p l).status = s.status := rfl
@[simp] theorem driveCs_hasData (p : PinId) (l : Level) : (s.driveCs p l).hasData = s.hasData := rfl
@[simp] theorem driveCs_intCode (p : PinId) (l : Level) : (s.driveCs p l).intCode = s.intCode := rfl
@[simp] theorem driveCs_probeCode (p : PinId) (l : Level) : (s.driveCs p l).probeCode = s.probeCode := rfl
@[simp] theorem driveCs_lastReadTs (p : PinId) (l : Level) : (s.driveCs p l).lastReadTs = s.lastReadTs := rfl
@[simp] theorem driveCs_lineCs (p : PinId) (l : Level) : (s.driveCs p l).lineCs = l.line := rfl
@[simp] theorem driveCs_lineClk (p : PinId) (l : Level) : (s.driveCs p l).lineClk = s.lineClk := rfl
@[simp] theorem driveCs_trace (p : PinId) (l : Level) : (s.driveCs p l).trace = s.trace ++ [.pinWrite p l] := rfl
@[simp] theorem driveCs_params (p : PinId) (l : Level) : (s.driveCs p l).params = s.params := rfl
@[simp] theorem driveCs_responses (p : PinId) (l : Level) : (s.driveCs p l).responses = s.responses := rfl
@[simp] theorem driveCs_refusalMark (p : PinId) (l : Level) : (s.driveCs p l).refusalMark = s.refusalMark := rfl
@[simp] theorem driveCs_hostQueue (p : PinId) (l : Level) : (s.driveCs p l).hostQueue = s.hostQueue := rfl
@[simp] theorem driveCs_pinAnswers (p : PinId) (l : Level) : (s.driveCs p l).pinAnswers = s.pinAnswers := rfl
@[simp] theorem driveCs_busAnswers (p : PinId) (l : Level) : (s.driveCs p l).busAnswers = s.busAnswers := rfl
@[simp] theorem driveCs_nowAnswers (p : PinId) (l : Level) : (s.driveCs p l).nowAnswers = s.nowAnswers := rfl
@[simp] theorem driveCs_draws (p : PinId) (l : Level) : (s.driveCs p l).draws = s.draws := rfl

/-! Driving the clock. -/

@[simp] theorem driveClk_lifecycle (p : PinId) (l : Level) : (s.driveClk p l).lifecycle = s.lifecycle := rfl
@[simp] theorem driveClk_transport (p : PinId) (l : Level) : (s.driveClk p l).transport = s.transport := rfl
@[simp] theorem driveClk_pinCs (p : PinId) (l : Level) : (s.driveClk p l).pinCs = s.pinCs := rfl
@[simp] theorem driveClk_pinClk (p : PinId) (l : Level) : (s.driveClk p l).pinClk = s.pinClk := rfl
@[simp] theorem driveClk_pinData (p : PinId) (l : Level) : (s.driveClk p l).pinData = s.pinData := rfl
@[simp] theorem driveClk_busId (p : PinId) (l : Level) : (s.driveClk p l).busId = s.busId := rfl
@[simp] theorem driveClk_spiFreqHz (p : PinId) (l : Level) : (s.driveClk p l).spiFreqHz = s.spiFreqHz := rfl
@[simp] theorem driveClk_bitDelayUs (p : PinId) (l : Level) : (s.driveClk p l).bitDelayUs = s.bitDelayUs := rfl
@[simp] theorem driveClk_calOffset (p : PinId) (l : Level) : (s.driveClk p l).calOffset = s.calOffset := rfl
@[simp] theorem driveClk_seebeck (p : PinId) (l : Level) : (s.driveClk p l).seebeck = s.seebeck := rfl
@[simp] theorem driveClk_status (p : PinId) (l : Level) : (s.driveClk p l).status = s.status := rfl
@[simp] theorem driveClk_hasData (p : PinId) (l : Level) : (s.driveClk p l).hasData = s.hasData := rfl
@[simp] theorem driveClk_intCode (p : PinId) (l : Level) : (s.driveClk p l).intCode = s.intCode := rfl
@[simp] theorem driveClk_probeCode (p : PinId) (l : Level) : (s.driveClk p l).probeCode = s.probeCode := rfl
@[simp] theorem driveClk_lastReadTs (p : PinId) (l : Level) : (s.driveClk p l).lastReadTs = s.lastReadTs := rfl
@[simp] theorem driveClk_lineCs (p : PinId) (l : Level) : (s.driveClk p l).lineCs = s.lineCs := rfl
@[simp] theorem driveClk_lineClk (p : PinId) (l : Level) : (s.driveClk p l).lineClk = l.line := rfl
@[simp] theorem driveClk_trace (p : PinId) (l : Level) : (s.driveClk p l).trace = s.trace ++ [.pinWrite p l] := rfl
@[simp] theorem driveClk_params (p : PinId) (l : Level) : (s.driveClk p l).params = s.params := rfl
@[simp] theorem driveClk_responses (p : PinId) (l : Level) : (s.driveClk p l).responses = s.responses := rfl
@[simp] theorem driveClk_refusalMark (p : PinId) (l : Level) : (s.driveClk p l).refusalMark = s.refusalMark := rfl
@[simp] theorem driveClk_hostQueue (p : PinId) (l : Level) : (s.driveClk p l).hostQueue = s.hostQueue := rfl
@[simp] theorem driveClk_pinAnswers (p : PinId) (l : Level) : (s.driveClk p l).pinAnswers = s.pinAnswers := rfl
@[simp] theorem driveClk_busAnswers (p : PinId) (l : Level) : (s.driveClk p l).busAnswers = s.busAnswers := rfl
@[simp] theorem driveClk_nowAnswers (p : PinId) (l : Level) : (s.driveClk p l).nowAnswers = s.nowAnswers := rfl
@[simp] theorem driveClk_draws (p : PinId) (l : Level) : (s.driveClk p l).draws = s.draws := rfl

/-! A half-delay. -/

@[simp] theorem delayUs_lifecycle (n : BitVec 16) : (s.delayUs n).lifecycle = s.lifecycle := by unfold State.delayUs; split <;> simp
@[simp] theorem delayUs_transport (n : BitVec 16) : (s.delayUs n).transport = s.transport := by unfold State.delayUs; split <;> simp
@[simp] theorem delayUs_pinCs (n : BitVec 16) : (s.delayUs n).pinCs = s.pinCs := by unfold State.delayUs; split <;> simp
@[simp] theorem delayUs_pinClk (n : BitVec 16) : (s.delayUs n).pinClk = s.pinClk := by unfold State.delayUs; split <;> simp
@[simp] theorem delayUs_pinData (n : BitVec 16) : (s.delayUs n).pinData = s.pinData := by unfold State.delayUs; split <;> simp
@[simp] theorem delayUs_busId (n : BitVec 16) : (s.delayUs n).busId = s.busId := by unfold State.delayUs; split <;> simp
@[simp] theorem delayUs_spiFreqHz (n : BitVec 16) : (s.delayUs n).spiFreqHz = s.spiFreqHz := by unfold State.delayUs; split <;> simp
@[simp] theorem delayUs_bitDelayUs (n : BitVec 16) : (s.delayUs n).bitDelayUs = s.bitDelayUs := by unfold State.delayUs; split <;> simp
@[simp] theorem delayUs_calOffset (n : BitVec 16) : (s.delayUs n).calOffset = s.calOffset := by unfold State.delayUs; split <;> simp
@[simp] theorem delayUs_seebeck (n : BitVec 16) : (s.delayUs n).seebeck = s.seebeck := by unfold State.delayUs; split <;> simp
@[simp] theorem delayUs_status (n : BitVec 16) : (s.delayUs n).status = s.status := by unfold State.delayUs; split <;> simp
@[simp] theorem delayUs_hasData (n : BitVec 16) : (s.delayUs n).hasData = s.hasData := by unfold State.delayUs; split <;> simp
@[simp] theorem delayUs_intCode (n : BitVec 16) : (s.delayUs n).intCode = s.intCode := by unfold State.delayUs; split <;> simp
@[simp] theorem delayUs_probeCode (n : BitVec 16) : (s.delayUs n).probeCode = s.probeCode := by unfold State.delayUs; split <;> simp
@[simp] theorem delayUs_lastReadTs (n : BitVec 16) : (s.delayUs n).lastReadTs = s.lastReadTs := by unfold State.delayUs; split <;> simp
@[simp] theorem delayUs_lineCs (n : BitVec 16) : (s.delayUs n).lineCs = s.lineCs := by unfold State.delayUs; split <;> simp
@[simp] theorem delayUs_lineClk (n : BitVec 16) : (s.delayUs n).lineClk = s.lineClk := by unfold State.delayUs; split <;> simp
@[simp] theorem delayUs_trace (n : BitVec 16) : (s.delayUs n).trace = s.trace ++ if n = 0#16 then [] else [.delayUs n] := by unfold State.delayUs; split <;> simp
@[simp] theorem delayUs_params (n : BitVec 16) : (s.delayUs n).params = s.params := by unfold State.delayUs; split <;> simp
@[simp] theorem delayUs_responses (n : BitVec 16) : (s.delayUs n).responses = s.responses := by unfold State.delayUs; split <;> simp
@[simp] theorem delayUs_refusalMark (n : BitVec 16) : (s.delayUs n).refusalMark = s.refusalMark := by unfold State.delayUs; split <;> simp
@[simp] theorem delayUs_hostQueue (n : BitVec 16) : (s.delayUs n).hostQueue = s.hostQueue := by unfold State.delayUs; split <;> simp
@[simp] theorem delayUs_pinAnswers (n : BitVec 16) : (s.delayUs n).pinAnswers = s.pinAnswers := by unfold State.delayUs; split <;> simp
@[simp] theorem delayUs_busAnswers (n : BitVec 16) : (s.delayUs n).busAnswers = s.busAnswers := by unfold State.delayUs; split <;> simp
@[simp] theorem delayUs_nowAnswers (n : BitVec 16) : (s.delayUs n).nowAnswers = s.nowAnswers := by unfold State.delayUs; split <;> simp
@[simp] theorem delayUs_draws (n : BitVec 16) : (s.delayUs n).draws = s.draws := by unfold State.delayUs; split <;> simp

/-! Sampling a pin. -/

@[simp] theorem pinRead_lifecycle (p : PinId) : ((s.pinRead p).2).lifecycle = s.lifecycle := rfl
@[simp] theorem pinRead_transport (p : PinId) : ((s.pinRead p).2).transport = s.transport := rfl
@[simp] theorem pinRead_pinCs (p : PinId) : ((s.pinRead p).2).pinCs = s.pinCs := rfl
@[simp] theorem pinRead_pinClk (p : PinId) : ((s.pinRead p).2).pinClk = s.pinClk := rfl
@[simp] theorem pinRead_pinData (p : PinId) : ((s.pinRead p).2).pinData = s.pinData := rfl
@[simp] theorem pinRead_busId (p : PinId) : ((s.pinRead p).2).busId = s.busId := rfl
@[simp] theorem pinRead_spiFreqHz (p : PinId) : ((s.pinRead p).2).spiFreqHz = s.spiFreqHz := rfl
@[simp] theorem pinRead_bitDelayUs (p : PinId) : ((s.pinRead p).2).bitDelayUs = s.bitDelayUs := rfl
@[simp] theorem pinRead_calOffset (p : PinId) : ((s.pinRead p).2).calOffset = s.calOffset := rfl
@[simp] theorem pinRead_seebeck (p : PinId) : ((s.pinRead p).2).seebeck = s.seebeck := rfl
@[simp] theorem pinRead_status (p : PinId) : ((s.pinRead p).2).status = s.status := rfl
@[simp] theorem pinRead_hasData (p : PinId) : ((s.pinRead p).2).hasData = s.hasData := rfl
@[simp] theorem pinRead_intCode (p : PinId) : ((s.pinRead p).2).intCode = s.intCode := rfl
@[simp] theorem pinRead_probeCode (p : PinId) : ((s.pinRead p).2).probeCode = s.probeCode := rfl
@[simp] theorem pinRead_lastReadTs (p : PinId) : ((s.pinRead p).2).lastReadTs = s.lastReadTs := rfl
@[simp] theorem pinRead_lineCs (p : PinId) : ((s.pinRead p).2).lineCs = s.lineCs := rfl
@[simp] theorem pinRead_lineClk (p : PinId) : ((s.pinRead p).2).lineClk = s.lineClk := rfl
@[simp] theorem pinRead_trace (p : PinId) : ((s.pinRead p).2).trace = s.trace ++ [.pinRead p (s.pinAnswerAt 0)] := rfl
@[simp] theorem pinRead_params (p : PinId) : ((s.pinRead p).2).params = s.params := rfl
@[simp] theorem pinRead_responses (p : PinId) : ((s.pinRead p).2).responses = s.responses := rfl
@[simp] theorem pinRead_refusalMark (p : PinId) : ((s.pinRead p).2).refusalMark = s.refusalMark := rfl
@[simp] theorem pinRead_hostQueue (p : PinId) : ((s.pinRead p).2).hostQueue = s.hostQueue := rfl
@[simp] theorem pinRead_pinAnswers (p : PinId) : ((s.pinRead p).2).pinAnswers = s.pinAnswers.tail := rfl
@[simp] theorem pinRead_busAnswers (p : PinId) : ((s.pinRead p).2).busAnswers = s.busAnswers := rfl
@[simp] theorem pinRead_nowAnswers (p : PinId) : ((s.pinRead p).2).nowAnswers = s.nowAnswers := rfl
@[simp] theorem pinRead_draws (p : PinId) : ((s.pinRead p).2).draws = s.draws + 1 := rfl

/-! Transferring a byte. -/

@[simp] theorem busTransfer_lifecycle (bus : BusId) (b : Byte) : ((s.busTransfer bus b).2).lifecycle = s.lifecycle := rfl
@[simp] theorem busTransfer_transport (bus : BusId) (b : Byte) : ((s.busTransfer bus b).2).transport = s.transport := rfl
@[simp] theorem busTransfer_pinCs (bus : BusId) (b : Byte) : ((s.busTransfer bus b).2).pinCs = s.pinCs := rfl
@[simp] theorem busTransfer_pinClk (bus : BusId) (b : Byte) : ((s.busTransfer bus b).2).pinClk = s.pinClk := rfl
@[simp] theorem busTransfer_pinData (bus : BusId) (b : Byte) : ((s.busTransfer bus b).2).pinData = s.pinData := rfl
@[simp] theorem busTransfer_busId (bus : BusId) (b : Byte) : ((s.busTransfer bus b).2).busId = s.busId := rfl
@[simp] theorem busTransfer_spiFreqHz (bus : BusId) (b : Byte) : ((s.busTransfer bus b).2).spiFreqHz = s.spiFreqHz := rfl
@[simp] theorem busTransfer_bitDelayUs (bus : BusId) (b : Byte) : ((s.busTransfer bus b).2).bitDelayUs = s.bitDelayUs := rfl
@[simp] theorem busTransfer_calOffset (bus : BusId) (b : Byte) : ((s.busTransfer bus b).2).calOffset = s.calOffset := rfl
@[simp] theorem busTransfer_seebeck (bus : BusId) (b : Byte) : ((s.busTransfer bus b).2).seebeck = s.seebeck := rfl
@[simp] theorem busTransfer_status (bus : BusId) (b : Byte) : ((s.busTransfer bus b).2).status = s.status := rfl
@[simp] theorem busTransfer_hasData (bus : BusId) (b : Byte) : ((s.busTransfer bus b).2).hasData = s.hasData := rfl
@[simp] theorem busTransfer_intCode (bus : BusId) (b : Byte) : ((s.busTransfer bus b).2).intCode = s.intCode := rfl
@[simp] theorem busTransfer_probeCode (bus : BusId) (b : Byte) : ((s.busTransfer bus b).2).probeCode = s.probeCode := rfl
@[simp] theorem busTransfer_lastReadTs (bus : BusId) (b : Byte) : ((s.busTransfer bus b).2).lastReadTs = s.lastReadTs := rfl
@[simp] theorem busTransfer_lineCs (bus : BusId) (b : Byte) : ((s.busTransfer bus b).2).lineCs = s.lineCs := rfl
@[simp] theorem busTransfer_lineClk (bus : BusId) (b : Byte) : ((s.busTransfer bus b).2).lineClk = s.lineClk := rfl
@[simp] theorem busTransfer_trace (bus : BusId) (b : Byte) : ((s.busTransfer bus b).2).trace = s.trace ++ [.busTransfer bus b (s.busAnswerAt 0)] := rfl
@[simp] theorem busTransfer_params (bus : BusId) (b : Byte) : ((s.busTransfer bus b).2).params = s.params := rfl
@[simp] theorem busTransfer_responses (bus : BusId) (b : Byte) : ((s.busTransfer bus b).2).responses = s.responses := rfl
@[simp] theorem busTransfer_refusalMark (bus : BusId) (b : Byte) : ((s.busTransfer bus b).2).refusalMark = s.refusalMark := rfl
@[simp] theorem busTransfer_hostQueue (bus : BusId) (b : Byte) : ((s.busTransfer bus b).2).hostQueue = s.hostQueue := rfl
@[simp] theorem busTransfer_pinAnswers (bus : BusId) (b : Byte) : ((s.busTransfer bus b).2).pinAnswers = s.pinAnswers := rfl
@[simp] theorem busTransfer_busAnswers (bus : BusId) (b : Byte) : ((s.busTransfer bus b).2).busAnswers = s.busAnswers.tail := rfl
@[simp] theorem busTransfer_nowAnswers (bus : BusId) (b : Byte) : ((s.busTransfer bus b).2).nowAnswers = s.nowAnswers := rfl
@[simp] theorem busTransfer_draws (bus : BusId) (b : Byte) : ((s.busTransfer bus b).2).draws = s.draws + 1 := rfl

/-! Drawing a timestamp. -/

@[simp] theorem now_lifecycle : (s.now.2).lifecycle = s.lifecycle := rfl
@[simp] theorem now_transport : (s.now.2).transport = s.transport := rfl
@[simp] theorem now_pinCs : (s.now.2).pinCs = s.pinCs := rfl
@[simp] theorem now_pinClk : (s.now.2).pinClk = s.pinClk := rfl
@[simp] theorem now_pinData : (s.now.2).pinData = s.pinData := rfl
@[simp] theorem now_busId : (s.now.2).busId = s.busId := rfl
@[simp] theorem now_spiFreqHz : (s.now.2).spiFreqHz = s.spiFreqHz := rfl
@[simp] theorem now_bitDelayUs : (s.now.2).bitDelayUs = s.bitDelayUs := rfl
@[simp] theorem now_calOffset : (s.now.2).calOffset = s.calOffset := rfl
@[simp] theorem now_seebeck : (s.now.2).seebeck = s.seebeck := rfl
@[simp] theorem now_status : (s.now.2).status = s.status := rfl
@[simp] theorem now_hasData : (s.now.2).hasData = s.hasData := rfl
@[simp] theorem now_intCode : (s.now.2).intCode = s.intCode := rfl
@[simp] theorem now_probeCode : (s.now.2).probeCode = s.probeCode := rfl
@[simp] theorem now_lastReadTs : (s.now.2).lastReadTs = s.lastReadTs := rfl
@[simp] theorem now_lineCs : (s.now.2).lineCs = s.lineCs := rfl
@[simp] theorem now_lineClk : (s.now.2).lineClk = s.lineClk := rfl
@[simp] theorem now_trace : (s.now.2).trace = s.trace := rfl
@[simp] theorem now_params : (s.now.2).params = s.params := rfl
@[simp] theorem now_responses : (s.now.2).responses = s.responses := rfl
@[simp] theorem now_refusalMark : (s.now.2).refusalMark = s.refusalMark := rfl
@[simp] theorem now_hostQueue : (s.now.2).hostQueue = s.hostQueue := rfl
@[simp] theorem now_pinAnswers : (s.now.2).pinAnswers = s.pinAnswers := rfl
@[simp] theorem now_busAnswers : (s.now.2).busAnswers = s.busAnswers := rfl
@[simp] theorem now_nowAnswers : (s.now.2).nowAnswers = s.nowAnswers.tail := rfl
@[simp] theorem now_draws : (s.now.2).draws = s.draws + 1 := rfl

/-! Responding. -/

@[simp] theorem respond_lifecycle (v : Word) : (s.respond v).lifecycle = s.lifecycle := rfl
@[simp] theorem respond_transport (v : Word) : (s.respond v).transport = s.transport := rfl
@[simp] theorem respond_pinCs (v : Word) : (s.respond v).pinCs = s.pinCs := rfl
@[simp] theorem respond_pinClk (v : Word) : (s.respond v).pinClk = s.pinClk := rfl
@[simp] theorem respond_pinData (v : Word) : (s.respond v).pinData = s.pinData := rfl
@[simp] theorem respond_busId (v : Word) : (s.respond v).busId = s.busId := rfl
@[simp] theorem respond_spiFreqHz (v : Word) : (s.respond v).spiFreqHz = s.spiFreqHz := rfl
@[simp] theorem respond_bitDelayUs (v : Word) : (s.respond v).bitDelayUs = s.bitDelayUs := rfl
@[simp] theorem respond_calOffset (v : Word) : (s.respond v).calOffset = s.calOffset := rfl
@[simp] theorem respond_seebeck (v : Word) : (s.respond v).seebeck = s.seebeck := rfl
@[simp] theorem respond_status (v : Word) : (s.respond v).status = s.status := rfl
@[simp] theorem respond_hasData (v : Word) : (s.respond v).hasData = s.hasData := rfl
@[simp] theorem respond_intCode (v : Word) : (s.respond v).intCode = s.intCode := rfl
@[simp] theorem respond_probeCode (v : Word) : (s.respond v).probeCode = s.probeCode := rfl
@[simp] theorem respond_lastReadTs (v : Word) : (s.respond v).lastReadTs = s.lastReadTs := rfl
@[simp] theorem respond_lineCs (v : Word) : (s.respond v).lineCs = s.lineCs := rfl
@[simp] theorem respond_lineClk (v : Word) : (s.respond v).lineClk = s.lineClk := rfl
@[simp] theorem respond_trace (v : Word) : (s.respond v).trace = s.trace := rfl
@[simp] theorem respond_params (v : Word) : (s.respond v).params = s.params := rfl
@[simp] theorem respond_responses (v : Word) : (s.respond v).responses = s.responses ++ [v] := rfl
@[simp] theorem respond_refusalMark (v : Word) : (s.respond v).refusalMark = s.refusalMark := rfl
@[simp] theorem respond_hostQueue (v : Word) : (s.respond v).hostQueue = s.hostQueue := rfl
@[simp] theorem respond_pinAnswers (v : Word) : (s.respond v).pinAnswers = s.pinAnswers := rfl
@[simp] theorem respond_busAnswers (v : Word) : (s.respond v).busAnswers = s.busAnswers := rfl
@[simp] theorem respond_nowAnswers (v : Word) : (s.respond v).nowAnswers = s.nowAnswers := rfl
@[simp] theorem respond_draws (v : Word) : (s.respond v).draws = s.draws := rfl

/-! The reset signal. -/

@[simp] theorem applyReset_lifecycle : (s.applyReset).lifecycle = .uninit := rfl
@[simp] theorem applyReset_transport : (s.applyReset).transport = .accel := rfl
@[simp] theorem applyReset_pinCs : (s.applyReset).pinCs = 0x00#8 := rfl
@[simp] theorem applyReset_pinClk : (s.applyReset).pinClk = 0x00#8 := rfl
@[simp] theorem applyReset_pinData : (s.applyReset).pinData = 0x00#8 := rfl
@[simp] theorem applyReset_busId : (s.applyReset).busId = 0x00#8 := rfl
@[simp] theorem applyReset_spiFreqHz : (s.applyReset).spiFreqHz = s.params.defaultSpiFreqHz := rfl
@[simp] theorem applyReset_bitDelayUs : (s.applyReset).bitDelayUs = 0#16 := rfl
@[simp] theorem applyReset_calOffset : (s.applyReset).calOffset = 0x00000000#32 := rfl
@[simp] theorem applyReset_seebeck : (s.applyReset).seebeck = s.params.nativeSeebeck := rfl
@[simp] theorem applyReset_status : (s.applyReset).status = Config.statusNoRead := rfl
@[simp] theorem applyReset_hasData : (s.applyReset).hasData = false := rfl
@[simp] theorem applyReset_intCode : (s.applyReset).intCode = 0x000#12 := rfl
@[simp] theorem applyReset_probeCode : (s.applyReset).probeCode = 0x0000#14 := rfl
@[simp] theorem applyReset_lastReadTs : (s.applyReset).lastReadTs = 0x00000000#32 := rfl
@[simp] theorem applyReset_lineCs : (s.applyReset).lineCs = .undriven := rfl
@[simp] theorem applyReset_lineClk : (s.applyReset).lineClk = .undriven := rfl
@[simp] theorem applyReset_trace : (s.applyReset).trace = [] := rfl
@[simp] theorem applyReset_params : (s.applyReset).params = s.params := rfl
@[simp] theorem applyReset_responses : (s.applyReset).responses = s.responses := rfl
@[simp] theorem applyReset_refusalMark : (s.applyReset).refusalMark = s.refusalMark := rfl
@[simp] theorem applyReset_hostQueue : (s.applyReset).hostQueue = s.hostQueue := rfl
@[simp] theorem applyReset_pinAnswers : (s.applyReset).pinAnswers = s.pinAnswers := rfl
@[simp] theorem applyReset_busAnswers : (s.applyReset).busAnswers = s.busAnswers := rfl
@[simp] theorem applyReset_nowAnswers : (s.applyReset).nowAnswers = s.nowAnswers := rfl
@[simp] theorem applyReset_draws : (s.applyReset).draws = s.draws := rfl

/-! A command presented. -/

@[simp] theorem presentCommand_lifecycle (c : Command) : (s.presentCommand c).lifecycle = s.lifecycle := rfl
@[simp] theorem presentCommand_transport (c : Command) : (s.presentCommand c).transport = s.transport := rfl
@[simp] theorem presentCommand_pinCs (c : Command) : (s.presentCommand c).pinCs = s.pinCs := rfl
@[simp] theorem presentCommand_pinClk (c : Command) : (s.presentCommand c).pinClk = s.pinClk := rfl
@[simp] theorem presentCommand_pinData (c : Command) : (s.presentCommand c).pinData = s.pinData := rfl
@[simp] theorem presentCommand_busId (c : Command) : (s.presentCommand c).busId = s.busId := rfl
@[simp] theorem presentCommand_spiFreqHz (c : Command) : (s.presentCommand c).spiFreqHz = s.spiFreqHz := rfl
@[simp] theorem presentCommand_bitDelayUs (c : Command) : (s.presentCommand c).bitDelayUs = s.bitDelayUs := rfl
@[simp] theorem presentCommand_calOffset (c : Command) : (s.presentCommand c).calOffset = s.calOffset := rfl
@[simp] theorem presentCommand_seebeck (c : Command) : (s.presentCommand c).seebeck = s.seebeck := rfl
@[simp] theorem presentCommand_status (c : Command) : (s.presentCommand c).status = s.status := rfl
@[simp] theorem presentCommand_hasData (c : Command) : (s.presentCommand c).hasData = s.hasData := rfl
@[simp] theorem presentCommand_intCode (c : Command) : (s.presentCommand c).intCode = s.intCode := rfl
@[simp] theorem presentCommand_probeCode (c : Command) : (s.presentCommand c).probeCode = s.probeCode := rfl
@[simp] theorem presentCommand_lastReadTs (c : Command) : (s.presentCommand c).lastReadTs = s.lastReadTs := rfl
@[simp] theorem presentCommand_lineCs (c : Command) : (s.presentCommand c).lineCs = s.lineCs := rfl
@[simp] theorem presentCommand_lineClk (c : Command) : (s.presentCommand c).lineClk = s.lineClk := rfl
@[simp] theorem presentCommand_trace (c : Command) : (s.presentCommand c).trace = s.trace := rfl
@[simp] theorem presentCommand_params (c : Command) : (s.presentCommand c).params = s.params := rfl
@[simp] theorem presentCommand_responses (c : Command) : (s.presentCommand c).responses = s.responses := rfl
@[simp] theorem presentCommand_refusalMark (c : Command) : (s.presentCommand c).refusalMark = s.refusalMark := rfl
@[simp] theorem presentCommand_hostQueue (c : Command) : (s.presentCommand c).hostQueue = .command c :: s.hostQueue := rfl
@[simp] theorem presentCommand_pinAnswers (c : Command) : (s.presentCommand c).pinAnswers = s.pinAnswers := rfl
@[simp] theorem presentCommand_busAnswers (c : Command) : (s.presentCommand c).busAnswers = s.busAnswers := rfl
@[simp] theorem presentCommand_nowAnswers (c : Command) : (s.presentCommand c).nowAnswers = s.nowAnswers := rfl
@[simp] theorem presentCommand_draws (c : Command) : (s.presentCommand c).draws = s.draws := rfl

/-- A sample's value is the environment's next pin answer. -/
@[simp] theorem pinRead_fst (p : PinId) : (s.pinRead p).1 = s.pinAnswerAt 0 := rfl

/-- A received byte is the environment's next bus answer. -/
@[simp] theorem busTransfer_fst (bus : BusId) (b : Byte) : (s.busTransfer bus b).1 = s.busAnswerAt 0 := rfl

/-- A timestamp is the time source's next answer. -/
@[simp] theorem now_fst : s.now.1 = s.nowAnswer := rfl

/-- Answers depend on their own list and on the count of draws, and on nothing else. -/
theorem pinAnswerAt_congr (t : State) (h : t.pinAnswers = s.pinAnswers) (hd : t.draws = s.draws) (k : Nat) :
    t.pinAnswerAt k = s.pinAnswerAt k := by
  simp [State.pinAnswerAt, h, hd]

/-- After a draw from the pins the answers have moved up by one. -/
theorem pinAnswerAt_tail (t : State) (h : t.pinAnswers = s.pinAnswers.tail) (hd : t.draws = s.draws + 1) (k : Nat) :
    t.pinAnswerAt k = s.pinAnswerAt (k + 1) := by
  simp [State.pinAnswerAt, h, hd, Nat.add_assoc, Nat.add_comm 1 k]

/-- Answers of the bus depend on their own list and on the count of draws, and on nothing else. -/
theorem busAnswerAt_congr (t : State) (h : t.busAnswers = s.busAnswers) (hd : t.draws = s.draws) (k : Nat) :
    t.busAnswerAt k = s.busAnswerAt k := by
  simp [State.busAnswerAt, h, hd]

/-- After a draw from the bus the answers have moved up by one. -/
theorem busAnswerAt_tail (t : State) (h : t.busAnswers = s.busAnswers.tail) (hd : t.draws = s.draws + 1) (k : Nat) :
    t.busAnswerAt k = s.busAnswerAt (k + 1) := by
  simp [State.busAnswerAt, h, hd, Nat.add_assoc, Nat.add_comm 1 k]

end Sys2Proof.Machine
end

