-- ==== Sys2Proof/Laws/Transport.lean ====
section
/-! SUPPORT. Once for each transport, everything it does: its frame, its events, the lines it leaves, the answers it draws. -/

namespace Sys2Proof.Machine

/-- Four bytes shifted in one below another are their concatenation (42 R124). -/
theorem shiftBytes_eq (b0 b1 b2 b3 : Byte) :
    ((((((((0x00000000#32 <<< 8) ||| b0.setWidth 32) <<< 8) ||| b1.setWidth 32) <<< 8) ||| b2.setWidth 32) <<< 8) |||
        b3.setWidth 32) = b0 ++ b1 ++ b2 ++ b3 := by
  apply BitVec.eq_of_getLsbD_eq
  intro i hi
  rw [BitVec.getLsbD_append, BitVec.getLsbD_append, BitVec.getLsbD_append]
  simp only [BitVec.getLsbD_or, BitVec.getLsbD_shiftLeft, BitVec.getLsbD_setWidth]
  have none (b : Byte) (j : Nat) (hj : ¬ j < 8) : b.getLsbD j = false := BitVec.getLsbD_of_ge b j (by omega)
  by_cases h1 : i < 8
  · simp [h1, hi]
  by_cases h2 : i < 16
  · simp [h1, hi, none b3 i h1, show i - 8 < 8 by omega, show i - 8 < 32 by omega]
  by_cases h3 : i < 24
  · simp [h1, hi, none b3 i h1, none b2 (i - 8) (by omega), show ¬ i - 8 < 8 by omega, show i - 8 - 8 < 8 by omega,
      show i - 8 < 32 by omega, show i - 8 - 8 < 32 by omega]
  · simp [h1, hi, none b3 i h1, none b2 (i - 8) (by omega), none b1 (i - 8 - 8) (by omega), show ¬ i - 8 < 8 by omega,
      show ¬ i - 8 - 8 < 8 by omega, show i - 8 - 8 - 8 < 8 by omega, show i - 8 < 32 by omega,
      show i - 8 - 8 < 32 by omega, show i - 8 - 8 - 8 < 32 by omega]

/-- XFER.A is its closed form: the frame of four received bytes, eight events, chip-select high, four answers drawn. -/
theorem xferA_eq (s : State) :
    xferA s = (accelFrame s,
      { s with
        trace := s.trace ++ accelEvents s
        lineCs := .high
        busAnswers := s.busAnswers.drop 4
        draws := s.draws + 4 }) := by
  have tails : s.busAnswers.tail.tail.tail.tail = s.busAnswers.drop 4 := by
    rcases s.busAnswers with _ | ⟨_, _ | ⟨_, _ | ⟨_, _ | _⟩⟩⟩ <;> rfl
  refine Prod.ext ?_ ?_
  · simp only [xferA, xferABytes, busTransfer_fst, shiftBytes_eq, accelFrame]
    simp [State.busAnswerAt, Nat.add_assoc]
  · simp [xferA, xferABytes, accelEvents, State.busTransfer, State.emit, State.driveCs, State.busAnswerAt, Level.line,
      Nat.add_assoc, tails]

/-- A half-delay appends its event, if any, and does nothing else. -/
theorem delayUs_eq (s : State) (n : BitVec 16) : s.delayUs n = { s with trace := s.trace ++ delayEvents n } := by
  unfold State.delayUs delayEvents
  split <;> simp [State.emit]

/-- One bit of XFER.B: its sample, its bit group, the clock high, one answer drawn. -/
theorem xferBBit_eq (s : State) :
    xferBBit s = (s.pinAnswerAt 0,
      { s with
        trace := s.trace ++ bitGroup s.pinClk s.pinData s.bitDelayUs (s.pinAnswerAt 0)
        lineClk := .high
        pinAnswers := s.pinAnswers.tail
        draws := s.draws + 1 }) := by
  simp [xferBBit, delayUs_eq, State.pinRead, State.driveClk, State.emit, State.pinAnswerAt, bitGroup, Level.line]

/-- The bit loop of XFER.B, from any frame begun. -/
theorem xferBBits_eq (n : Nat) (w : Frame) (s : State) :
    xferBBits n w s = (shiftSamples s.pinAnswerAt 0 n w,
      { s with
        trace := s.trace ++ (List.range n).flatMap (fun k => bitGroup s.pinClk s.pinData s.bitDelayUs (s.pinAnswerAt k))
        lineClk := if n = 0 then s.lineClk else .high
        pinAnswers := s.pinAnswers.drop n
        draws := s.draws + n }) := by
  induction n generalizing w s with
  | zero => simp [xferBBits, shiftSamples]
  | succ n ih =>
    have later (f : Nat → BitVec 1) (k : Nat) (v : Frame) :
        shiftSamples (fun j => f (j + 1)) k n v = shiftSamples f (k + 1) n v := by
      clear ih
      induction n generalizing k v with
      | zero => rfl
      | succ n ih => exact ih (k + 1) _
    have moved : (fun k => State.pinAnswerAt
        { s with
          trace := s.trace ++ bitGroup s.pinClk s.pinData s.bitDelayUs (s.pinAnswerAt 0)
          lineClk := .high, pinAnswers := s.pinAnswers.tail, draws := s.draws + 1 } k) =
        fun k => s.pinAnswerAt (k + 1) := by
      funext k
      exact pinAnswerAt_tail s _ rfl rfl k
    simp only [xferBBits, xferBBit_eq, ih, Prod.mk.injEq]
    refine ⟨?_, ?_⟩
    · rw [show State.pinAnswerAt _ = _ from moved, later]
      rfl
    · simp only [congrFun moved]
      simp [List.range_succ_eq_map, List.flatMap_map, Nat.add_assoc, Nat.add_comm 1]

/-- XFER.B is its closed form: the frame of 32 samples, the bit groups between the chip-select events, both lines high. -/
theorem xferB_eq (s : State) :
    xferB s = (clockedFrame s,
      { s with
        trace := s.trace ++ clockedEvents s
        lineCs := .high
        lineClk := .high
        pinAnswers := s.pinAnswers.drop 32
        draws := s.draws + 32 }) := by
  have h : (s.driveCs s.pinCs .low).pinAnswerAt = s.pinAnswerAt := rfl
  simp only [xferB, xferBBits_eq, clockedFrame, clockedEvents, h]
  simp [State.driveCs, State.emit, Level.line]

/-- Bit by bit: the last sample shifted in is the least significant bit (43 R144). -/
theorem shiftSamples_getLsbD (f : Nat → BitVec 1) (k n : Nat) (w : Frame) (i : Nat) (hi : i < 32) :
    (shiftSamples f k n w).getLsbD i = if i < n then (f (k + n - 1 - i)).getLsbD 0 else w.getLsbD (i - n) := by
  induction n generalizing k w with
  | zero => simp [shiftSamples]
  | succ n ih =>
    rw [shiftSamples, ih]
    by_cases h : i < n
    · simp [h, show i < n + 1 by omega, show k + 1 + n = k + (n + 1) by omega]
    by_cases h' : i = n
    · subst h'
      simp
    · simp [h, show ¬ i < n + 1 by omega, show i - n < 32 by omega, show ¬ i - n = 0 by omega,
        show i - n - 1 = i - (n + 1) by omega]
      rw [BitVec.getLsbD_of_ge (f k) (i - n) (by omega), Bool.or_false, BitVec.getLsbD_eq_getElem]

/-- Everything the transfer of a READ does, under either transport. -/
theorem transfer_eq (s : State) : transfer s = (transferFrame s, afterTransfer s) := by
  cases h : s.transport <;> simp [transfer, transferFrame, transferEvents, afterTransfer, h, xferA_eq, xferB_eq]

/-- The k-th sample is frame bit 31 - k (43 R144). -/
theorem clockedFrame_getLsbD (s : State) (k : Nat) (hk : k < 32) :
    (clockedFrame s).getLsbD (31 - k) = (s.pinAnswerAt k).getLsbD 0 := by
  rw [clockedFrame, shiftSamples_getLsbD _ _ _ _ _ (by omega), if_pos (by omega)]
  congr 2
  omega

/-- What a READ of a configured block leaves before it responds: the decoded frame of its one transfer. -/
theorem readFrame_eq (s : State) : readFrame s = decodeFrame (transferFrame s) (afterTransfer s) := by
  rw [readFrame, transfer_eq]

end Sys2Proof.Machine
end

