-- ==== Sys2Proof/Laws/Step.lean ====
section
/-! SUPPORT. What a step can do, said once: the cases of `step` and of each command, and the frames of `decodeFrame`. -/

namespace Sys2Proof.Machine

/-- A step with nothing at the port, with a reset at it, and with a command at it. -/
theorem step_eq (s : State) :
    step s = match s.hostQueue with
      | [] => .next s
      | .reset :: rest => .next { s with hostQueue := rest }.applyReset
      | .command c :: rest =>
        match decode c with
        | .error e => .refused (refusalOf e)
        | .ok i => exec i { s with hostQueue := rest } := by
  unfold step nextInput
  rcases s.hostQueue with _ | ⟨i, rest⟩
  · rfl
  · cases i <;> rfl

/-- If a step answers a next state, the block was idle, or was reset, or ran a decoded command. -/
theorem step_next_cases (s t : State) (h : step s = .next t) :
    (s.hostQueue = [] ∧ t = s) ∨
      (∃ rest, s.hostQueue = .reset :: rest ∧ t = { s with hostQueue := rest }.applyReset) ∨
      (∃ c rest i, s.hostQueue = .command c :: rest ∧ decode c = .ok i ∧ exec i { s with hostQueue := rest } = .next t) := by
  rw [step_eq] at h
  split at h
  · next hq => exact .inl ⟨hq, by injection h with h; exact h.symm⟩
  · next rest hq => exact .inr (.inl ⟨rest, hq, by injection h with h; exact h.symm⟩)
  · next c rest hq =>
    split at h
    · cases h
    · next i hd => exact .inr (.inr ⟨c, rest, i, hq, hd, h⟩)

/-- If INIT.A answers a next state, the block was uninitialized, and this is the state. -/
theorem execInitA_next (cs : PinId) (bus : BusId) (s t : State) (h : execInitA cs bus s = .next t) :
    s.lifecycle = .uninit ∧
      t = { s with
        lifecycle := .configured, transport := .accel, pinCs := cs, busId := bus, lineCs := .high
        trace := s.trace ++ [.pinMode cs .output, .pinWrite cs .high, .busBegin bus]
        responses := s.responses ++ [0x00000000#32] } := by
  unfold execInitA at h
  split at h
  · cases h
  · next hl =>
    injection h with h
    exact ⟨hl, by subst h; simp [State.respond, State.driveCs, State.emit, Level.line]⟩

/-- If INIT.B answers a next state, the block was uninitialized and the pins were different, and this is the state. -/
theorem execInitB_next (cs clk data : PinId) (s t : State) (h : execInitB cs clk data s = .next t) :
    s.lifecycle = .uninit ∧ pinConflict cs clk data = false ∧
      t = { s with
        lifecycle := .configured, transport := .bitclk, pinCs := cs, pinClk := clk, pinData := data
        lineCs := .high, lineClk := .low
        trace := s.trace ++ [.pinMode cs .output, .pinWrite cs .high, .pinMode clk .output, .pinWrite clk .low,
          .pinMode data .input]
        responses := s.responses ++ [0x00000000#32] } := by
  unfold execInitB at h
  split at h
  · cases h
  · next hl =>
    split at h
    · cases h
    · next hp =>
      injection h with h
      exact ⟨hl, by simpa using hp, by subst h; simp [State.respond, State.driveCs, State.driveClk, State.emit, Level.line]⟩

/-- If READ answers a next state, the block was configured, and this is the state. -/
theorem execRead_next (s t : State) (h : execRead s = .next t) :
    s.lifecycle = .configured ∧ t = (readFrame s).respond (statusWord (readFrame s).status) := by
  unfold execRead at h
  split at h
  · cases h
  · next hl =>
    injection h with h
    exact ⟨hl, h.symm⟩

/-- DECODE writes `STATUS` for the sentinel, and all cached fields for any other frame; in both cases nothing else but the draw. -/
theorem decodeFrame_eq (w : Frame) (s : State) :
    decodeFrame w s = if w = Config.sentinel then { s with status := Config.statusNoComm }
      else { s with
        status := (frameStat w).setWidth 8, intCode := frameIntCode w, probeCode := frameProbeCode w, hasData := true
        lastReadTs := s.nowAnswer, nowAnswers := s.nowAnswers.tail, draws := s.draws + 1 } := by
  by_cases h : w = Config.sentinel <;> simp [decodeFrame, cacheFrame, frameStatus, isSentinel, h, State.now]

/-- A frame decodes to a status that is legal and is not `STATUS_NOREAD`. -/
theorem frameStatus_cases (w : Frame) :
    frameStatus w = Config.statusNoComm ∧ w = Config.sentinel ∨ (frameStatus w).toNat ≤ 7 ∧ w ≠ Config.sentinel := by
  unfold frameStatus isSentinel
  by_cases h : w = Config.sentinel
  · simp [h]
  · right
    have h3 := (frameStat w).isLt
    simp [h]
    omega

/-- A host interaction that is a step is that step. -/
theorem hostStep_of_next (s t : State) (h : step s = .next t) : hostStep s = t := by
  unfold hostStep
  rw [h]

/-- A host interaction that is refused leaves everything but the port and the mark. -/
theorem hostStep_of_refused (s : State) (r : Refusal) (h : step s = .refused r) : hostStep s = afterRefusal s r := by
  unfold hostStep
  rw [h]

end Sys2Proof.Machine
end

