-- ==== Sys2Proof/Laws/Runs.lean ====
section
/-! SUPPORT. What the premises of a run, its end and a step of one of several blocks say, each once. -/

namespace Sys2Proof.Machine

/-- When the next interaction is a READ that is not refused, the step is READ's meaning on the state with the word taken. -/
theorem nextIsRead_step (s : State) (h : nextIsRead s = true) :
    ∃ rest, s.lifecycle = .configured ∧ s.hostQueue = .command (encode .read) :: rest ∧
      step s = exec .read { s with hostQueue := rest } := by
  simp only [nextIsRead, Bool.and_eq_true, beq_iff_eq, List.head?_eq_some_iff] at h
  obtain ⟨hl, rest, hq⟩ := h
  refine ⟨rest, hl, hq, ?_⟩
  rw [step_eq, hq]
  rfl

/-- No pin belongs to two blocks, said index by index. -/
theorem linesExclusive_iff (blocks : List State) :
    linesExclusive blocks = true ↔
      ∀ (j k : Nat) (a b : State) (p : PinId), j ≠ k → blocks[j]? = some a → blocks[k]? = some b →
        p ∈ a.ownedPins → p ∉ b.ownedPins := by
  simp only [linesExclusive, decide_eq_true_eq, List.pairwise_iff_getElem]
  constructor
  · intro h j k a b p hjk ha hb hpa hpb
    obtain ⟨hj, rfl⟩ := List.getElem?_eq_some_iff.mp ha
    obtain ⟨hk, rfl⟩ := List.getElem?_eq_some_iff.mp hb
    rcases Nat.lt_or_gt_of_ne hjk with hlt | hlt
    · exact h j k hj hk hlt p hpa hpb
    · exact h k j hk hj hlt p hpb hpa
  · intro h j k hj hk hlt p hpa
    exact h j k _ _ p (by omega) (List.getElem?_eq_getElem hj) (List.getElem?_eq_getElem hk) hpa

/-- A step of the k-th block is there exactly when the pins are exclusive before and after it, and then it is `hostStep` of that
block. -/
theorem stepBlock_eq_some (blocks next : List State) (k : Nat) :
    stepBlock blocks k = some next ↔
      linesExclusive blocks = true ∧ linesExclusive next = true ∧ next = blocks.modify k hostStep := by
  simp only [stepBlock, Bool.and_eq_true]
  split
  · next h =>
    simp only [Option.some.injEq]
    constructor
    · rintro rfl
      exact ⟨h.1, h.2, rfl⟩
    · exact fun h' => h'.2.2.symm
  · next h =>
    simp only [reduceCtorEq, false_iff, not_and]
    rintro h1 h2 rfl
    exact h ⟨h1, h2⟩

/-- A list of primitives of which every waiting one returns is issued to its end. -/
theorem issued_eq_self (returns : Nat → Bool) (i : Nat) (l : List Primitive)
    (h : ∀ j p, l[j]? = some p → p.waits = true → returns (i + j) = true) : issued returns i l = l := by
  induction l generalizing i with
  | nil => rfl
  | cons p rest ih =>
    have h0 : (p.waits && !returns i) = false := by
      have := h 0 p rfl
      cases hp : p.waits <;> simp_all
    rw [issued, if_neg (by simp [h0]), ih]
    intro j q hj
    rw [show i + 1 + j = i + (j + 1) by omega]
    exact h (j + 1) q (by simpa using hj)

/-- A command that answers a next state leaves the host's coming inputs alone. -/
theorem exec_hostQueue (i : Instr) (s t : State) (h : exec i s = .next t) : t.hostQueue = s.hostQueue := by
  cases i with
  | initA cs bus => obtain ⟨-, rfl⟩ := execInitA_next cs bus s t h; rfl
  | initB cs clk data => obtain ⟨-, -, rfl⟩ := execInitB_next cs clk data s t h; rfl
  | read =>
    obtain ⟨-, rfl⟩ := execRead_next s t h
    rw [readFrame_eq, decodeFrame_eq]
    split <;> simp [afterTransfer]
  | _ => injection h with h; subst h; rfl

/-- A host interaction takes one of the host's coming inputs, refused or not. -/
theorem hostStep_hostQueue (s : State) : (hostStep s).hostQueue = s.hostQueue.tail := by
  rcases h : step s with t | f | r
  · rw [hostStep_of_next s t h]
    obtain ⟨hq, rfl⟩ | ⟨rest, hq, rfl⟩ | ⟨c, rest, i, hq, -, he⟩ := step_next_cases s t h
    · simp [hq]
    · simp [hq]
    · simp [hq, exec_hostQueue i _ t he]
  · exact nomatch f
  · rw [hostStep_of_refused s r h]
    rfl

/-- What is left of the host's coming inputs after a number of interactions. -/
theorem hostRun_hostQueue (n : Nat) (s : State) : (hostRun n s).hostQueue = s.hostQueue.drop n := by
  induction n generalizing s with
  | zero => rfl
  | succ n ih => rw [hostRun, ih, hostStep_hostQueue, List.drop_tail]

/-- A reset after the last command does not count. -/
@[simp] theorem inputsToLastCommand_concat_reset (l : List HostInput) :
    inputsToLastCommand (l ++ [.reset]) = inputsToLastCommand l := by
  rw [inputsToLastCommand, List.rdropWhile_concat_pos _ _ _ rfl, inputsToLastCommand]

/-- Every input up to the last command counts, resets among them. -/
@[simp] theorem inputsToLastCommand_concat_command (l : List HostInput) (c : Command) :
    inputsToLastCommand (l ++ [.command c]) = l.length + 1 := by
  simp [inputsToLastCommand]

/-- At the end of a run no command is left: what the host still sends is resets (R233). -/
theorem finalState_hostQueue (s : State) : ∀ i ∈ (finalState s).hostQueue, i = .reset := by
  rw [finalState, hostRun_hostQueue]
  induction s.hostQueue using List.reverseRecOn with
  | nil => simp
  | append_singleton l i ih =>
    cases i with
    | command c => simp
    | reset =>
      have hle : inputsToLastCommand l ≤ l.length := (List.rdropWhile_prefix _ l).length_le
      rw [inputsToLastCommand_concat_reset, List.drop_append_of_le_length hle]
      simpa [or_imp, forall_and] using ih

end Sys2Proof.Machine
end

