-- ==== Sys2Proof/Tests/Slice0.lean ====
section
/-! SUPPORT. Tests: ill-formed terms, words written out from the spec, single steps with the vectors of 95_test_vectors.md,
and a witness for the hypotheses of every statement that has some. -/

namespace Sys2Proof.Tests

open Sys2Proof Sys2Proof.Machine

/-! ## Small states -/

/-- The next state of an outcome, if it is one. -/
def nextOf (o : Host.Outcome State Fault Refusal) : Option State :=
  match o with
  | .next t => some t
  | .fault _ => none
  | .refused _ => none

/-- The refusal of an outcome, if it is one. -/
def refusedOf (o : Host.Outcome State Fault Refusal) : Option Refusal :=
  match o with
  | .next _ => none
  | .fault _ => none
  | .refused r => some r

/-- The reset state with one command word at the port. -/
def port (c : Command) : State := { State.reset with hostQueue := [.command c] }

/-- The state after V-I01, with four coming bytes and a coming timestamp. -/
def accel (bytes : List Byte) : State :=
  { State.reset with
    lifecycle := .configured, pinCs := 10#8, lineCs := .high
    trace := [.pinMode 10#8 .output, .pinWrite 10#8 .high, .busBegin 0#8]
    busAnswers := bytes, nowAnswers := [1000#32] }

/-- The state after V-I02 and a SETDLY, with 32 coming samples, all of them the same. -/
def clocked (d : BitVec 16) (b : BitVec 1) : State :=
  { State.reset with
    lifecycle := .configured, transport := .bitclk, pinCs := 10#8, pinClk := 13#8, pinData := 12#8
    lineCs := .high, lineClk := .low, bitDelayUs := d
    trace := [.pinMode 10#8 .output, .pinWrite 10#8 .high, .pinMode 13#8 .output, .pinWrite 13#8 .low, .pinMode 12#8 .input]
    pinAnswers := List.replicate 32 b, nowAnswers := [1000#32] }

/-- A configured state with a reading: the codes, the offset and the coefficient. -/
def reading (p : BitVec 14) (i : BitVec 12) (offset coeff : F32) : State :=
  { accel [] with hasData := true, status := 0x00#8, probeCode := p, intCode := i, calOffset := offset, seebeck := coeff }

/-- The native coefficient of 00_scope.md R6. -/
def native : F32 := 0x42251AA0#32

/-! ## Well-formedness: each check refuses its ill-formed term -/

theorem test_wellFormed_good : (Instr.initB 10#8 13#8 12#8).wellFormed = true := by decide
theorem test_wellFormed_cs_clk : (Instr.initB 1#8 1#8 2#8).wellFormed = false := by decide
theorem test_wellFormed_cs_data : (Instr.initB 1#8 2#8 1#8).wellFormed = false := by decide
theorem test_wellFormed_clk_data : (Instr.initB 1#8 2#8 2#8).wellFormed = false := by decide

/-! ## Decoding: every constructor from a word written out from 30_encoding.md R74, R76 and 95 V-E01 to V-E18 -/

theorem test_decode_initA : decode 0x1005010000000000#64 = .ok (.initA 5#8 1#8) := rfl
theorem test_decode_initB : decode 0x110A0D0C00000000#64 = .ok (.initB 10#8 13#8 12#8) := rfl
theorem test_decode_read : decode 0x2000000000000000#64 = .ok .read := rfl
theorem test_decode_getpt : decode 0x3000000000000000#64 = .ok .getpt := rfl
theorem test_decode_getit : decode 0x3100000000000000#64 = .ok .getit := rfl
theorem test_decode_getst : decode 0x3200000000000000#64 = .ok .getst := rfl
theorem test_decode_getts : decode 0x3300000000000000#64 = .ok .getts := rfl
theorem test_decode_setofs : decode 0x40000000BE99999A#64 = .ok (.setofs 0xBE99999A#32) := rfl
theorem test_decode_setsbk : decode 0x4100000042500000#64 = .ok (.setsbk 0x42500000#32) := rfl
theorem test_decode_setfrq : decode 0x42000000003D0900#64 = .ok (.setfrq 4000000#32) := rfl
theorem test_decode_setdly : decode 0x430000000000FFFF#64 = .ok (.setdly 65535#16) := rfl

/-- V-E19, V-E20, V-E21. -/
theorem test_decode_unassigned :
    decode 0x0000000000000000#64 = .error .illegalOpcode ∧ decode 0xFF00000000000000#64 = .error .illegalOpcode ∧
      decode 0x1200000000000000#64 = .error .illegalOpcode := ⟨rfl, rfl, rfl⟩

/-- V-E22 to V-E26, V-E34. -/
theorem test_decode_reserved :
    decode 0x2000000000000001#64 = .error .reservedField ∧ decode 0x1000000100000000#64 = .error .reservedField ∧
      decode 0x4300000000010000#64 = .error .reservedField ∧ decode 0x3001000000000000#64 = .error .reservedField ∧
      decode 0x400100003FC00000#64 = .error .reservedField ∧ decode 0x110A0D0C00000001#64 = .error .reservedField :=
  ⟨rfl, rfl, rfl, rfl, rfl, rfl⟩

/-- The host's two views of a word of the opcode table. -/
theorem test_table_word :
    decodeTableWord 64 0x110A0D0C00000000 = some (.initB 10#8 13#8 12#8) ∧
      step (State.reset.withFetchWord 64 0x110A0D0C00000000) = exec (.initB 10#8 13#8 12#8) State.reset := ⟨rfl, rfl⟩

/-- V-E02, V-E12, V-E14: text to word; -0.3 is the nearest binary32. -/
theorem test_assemble :
    assembleLine Params.defaults "INIT 10".toList = .word 0x100A000000000000#64 ∧
      assembleLine Params.defaults "SETOFS -0.3".toList = .word 0x40000000BE99999A#64 ∧
      assembleLine Params.defaults "SETSBK 52.0".toList = .word 0x4100000042500000#64 := by decide +kernel

/-! ## Single steps, at most two a command -/

/-- V-I01. -/
theorem test_initA :
    (nextOf (step (port 0x100A000000000000#64))).map (fun t => (t.trace, t.lineCs, t.lineClk, t.pinCs, t.responses)) =
      some ([.pinMode 10#8 .output, .pinWrite 10#8 .high, .busBegin 0#8], .high, .undriven, 10#8, [0#32]) := by decide

/-- V-E33. -/
theorem test_initA_reinit : refusedOf (exec (.initA 10#8 0#8) (accel [])) = some .reinit := by decide

/-- V-I02. -/
theorem test_initB :
    (nextOf (step (port 0x110A0D0C00000000#64))).map (fun t => (t.trace, t.lineCs, t.lineClk, t.transport)) =
      some ([.pinMode 10#8 .output, .pinWrite 10#8 .high, .pinMode 13#8 .output, .pinWrite 13#8 .low, .pinMode 12#8 .input],
        .high, .low, .bitclk) := by decide

/-- V-E28, V-E32: REINIT comes before PIN_CONFLICT. -/
theorem test_initB_refusals :
    refusedOf (step (port 0x1100000000000000#64)) = some .pinConflict ∧
      refusedOf (exec (.initB 0#8 0#8 0#8) (accel [])) = some .reinit := by decide

/-- V-R01 and V-A07: the fixture under ACCEL, with its eight events. -/
theorem test_read_accel :
    (nextOf (exec .read (accel [0x0A#8, 0x00#8, 0x01#8, 0x90#8]))).map
        (fun t => (t.status, t.intCode, t.probeCode, t.lastReadTs, t.trace.drop 3)) =
      some (0x00#8, 0x019#12, 0x0280#14, 1000#32,
        [.busBeginTransaction 0#8 1000000#32 .msbFirst 0#2, .pinWrite 10#8 .low, .busTransfer 0#8 0x00#8 0x0A#8,
         .busTransfer 0#8 0x00#8 0x00#8, .busTransfer 0#8 0x00#8 0x01#8, .busTransfer 0#8 0x00#8 0x90#8,
         .pinWrite 10#8 .high, .busEndTransaction 0#8]) := by decide +kernel

/-- V-B07 and V-B04: the pulled-up line under BITCLK is a communication failure, after 162 events. -/
theorem test_read_clocked :
    (nextOf (exec .read (clocked 5#16 1#1))).map
        (fun t => (t.status, t.hasData, t.lineClk, (t.trace.drop 5).length, (t.trace.drop 5).take 6)) =
      some (0x81#8, false, .high, 162,
        [.pinWrite 10#8 .low, .pinWrite 13#8 .low, .delayUs 3#16, .pinRead 12#8 1#1, .pinWrite 13#8 .high, .delayUs 2#16]) := by
  decide +kernel

/-- V-Q04: the sum is rounded to binary32. -/
theorem test_getpt_fast : probeReading (reading 0x0280#14 0x019#12 0xBE99999A#32 native) = 0x431FB333#32 := by decide +kernel

/-- V-Q12: the slow path in its operation order. -/
theorem test_getpt_slow : probeReading (reading 0x0280#14 0x019#12 0#32 0x42500000#32) = 0x42FEA690#32 := by decide +kernel

/-- V-Q24. -/
theorem test_getit_none : (nextOf (exec .getit State.reset)).map State.responses = some [0xC479C000#32] := by decide

/-- V-D06: -0.0625, and neither offset nor coefficient applies. -/
theorem test_getit_negative :
    (nextOf (exec .getit (reading 0#14 0xFFF#12 0x3FC00000#32 0x42500000#32))).map State.responses =
      some [0xBD800000#32] := by decide +kernel

/-- V-Q27. -/
theorem test_getst_reset : (nextOf (exec .getst State.reset)).map State.responses = some [0x00000080#32] := by decide

/-- V-Q30. -/
theorem test_getst_stale :
    (nextOf (exec .getst { reading 0#14 0#12 0#32 native with status := 0x81#8 })).map State.responses =
      some [0x00000181#32] := by decide

/-- V-Q33. -/
theorem test_getts :
    (nextOf (exec .getts { State.reset with lastReadTs := 1000#32 })).map State.responses = some [0x000003E8#32] := by decide

/-- V-S03: a NaN pattern is kept. -/
theorem test_setofs :
    (nextOf (exec (.setofs 0x7FC00001#32) State.reset)).map (fun t => (t.calOffset, t.seebeck)) =
      some (0x7FC00001#32, native) := by decide

/-- V-S04. -/
theorem test_setsbk :
    (nextOf (exec (.setsbk 0x42500000#32) State.reset)).map (fun t => (t.seebeck, t.calOffset)) =
      some (0x42500000#32, 0#32) := by decide

/-- V-S08. -/
theorem test_setfrq : (nextOf (exec (.setfrq 0#32) State.reset)).map State.spiFreqHz = some 0#32 := by decide

/-- V-S09 and V-B06: an odd delay gives its odd microsecond to the low half. -/
theorem test_setdly :
    (nextOf (exec (.setdly 65535#16) State.reset)).map
        (fun t => (t.bitDelayUs, delayLow t.bitDelayUs, delayHigh t.bitDelayUs)) =
      some (65535#16, 32768#16, 32767#16) := by decide

/-- E5: encode(3, -1.5, 100.25) and encode(0, 25.0, -0.25). -/
theorem test_encodeFrame : encodeFrame 3#3 (-24) 401 = 0x0644FE83#32 ∧ encodeFrame 0#3 400 (-1) = 0xFFFC1900#32 := by
  decide +kernel

/-! ## Witnesses: each hypothesis list is met, clause by clause -/

theorem witness_EncodeInvertsDecode : decode 0x43000000000000FF#64 = .ok (.setdly 255#16) := rfl

/-- One word is selected by a row; the all-zero word and a READ with one low bit by none. -/
theorem witness_DecodingIsRowSelection :
    (∃ r ∈ opcodeTable, r.selects 0x430000000000FFFF#64 = true) ∧
      (∀ r ∈ opcodeTable, r.selects 0x0000000000000000#64 = false) ∧
      (∀ r ∈ opcodeTable, r.selects 0x2000000000000001#64 = false) := by decide

theorem witness_UnassignedOpcodesAreRefused :
    (port 0x4400000000000000#64).hostQueue = .command 0x4400000000000000#64 :: [] ∧
      fieldOpc 0x4400000000000000#64 ∉
        [0x10#8, 0x11#8, 0x20#8, 0x30#8, 0x31#8, 0x32#8, 0x33#8, 0x40#8, 0x41#8, 0x42#8, 0x43#8] := by decide

/-- For every row a word with its opcode that it does not select; the last one is the boundary bit of SETDLY. -/
theorem witness_NonzeroReservedFieldsAreRefused :
    ([0x1000000100000000#64, 0x1100000000000001#64, 0x2000000000000001#64, 0x3001000000000000#64, 0x3100000000000001#64,
      0x3200000100000000#64, 0x3300010000000000#64, 0x4001000000000000#64, 0x4100010000000000#64, 0x4200000100000000#64,
      0x4300000000010000#64].zip opcodeTable).all
        (fun x => fieldOpc x.1 == fieldOpc x.2.pattern && !x.2.selects x.1) = true ∧ opcodeTable.length = 11 := by decide

theorem witness_StepRunsTheDecodedCommand :
    (port 0x2000000000000000#64).hostQueue = .command 0x2000000000000000#64 :: [] ∧
      decode 0x2000000000000000#64 = .ok .read := ⟨rfl, rfl⟩

theorem witness_IdleBlockHoldsItsState : State.reset.hostQueue = [] := rfl

theorem witness_ResetSetsEveryRegister :
    ({ accel [] with hostQueue := [.reset] } : State).hostQueue = .reset :: [] := rfl

/-- A configured state in the middle of a run has the register invariants, and READ steps from it. -/
theorem witness_StepKeepsRegisterInvariants :
    RegInv { clocked 0#16 0#1 with hostQueue := [.command 0x2000000000000000#64] } ∧
      (nextOf (step { clocked 0#16 0#1 with hostQueue := [.command 0x2000000000000000#64] })).isSome = true :=
  ⟨⟨.inr (.inl rfl), by decide, by decide, by decide, by decide⟩, by decide +kernel⟩

theorem clocked_lineInv (d : BitVec 16) (b : BitVec 1) (q : List HostInput) : LineInv { clocked d b with hostQueue := q } where
  uninit_silent := fun h => by cases h
  cs_traced := fun _ => rfl
  clk_traced := fun _ _ => rfl
  clk_unused := fun h => by cases h
  pins_distinct := fun _ => by
    show (10#8 : PinId) ≠ 13#8 ∧ (10#8 : PinId) ≠ 12#8 ∧ (13#8 : PinId) ≠ 12#8
    decide

theorem witness_StepKeepsLinesEqualToTrace :
    LineInv { clocked 1#16 0#1 with hostQueue := [.command 0x2000000000000000#64] } ∧
      (nextOf (step { clocked 1#16 0#1 with hostQueue := [.command 0x2000000000000000#64] })).isSome = true :=
  ⟨clocked_lineInv _ _ _, by decide +kernel⟩

theorem witness_ReachableStatesHaveTheInvariants : FromReset (port 0x100A000000000000#64) := ⟨_, _, _, _, _, rfl⟩

theorem witness_ParametersNeverChange : (nextOf (step (port 0x4000000000000000#64))).isSome = true := by decide

theorem witness_ResetKeepsWhatLiesOutsideTheBlock :
    ({ clocked 0#16 0#1 with hostQueue := [.reset, .reset] } : State).hostQueue = .reset :: [.reset] := rfl

theorem witness_InitAConfiguresAccelerated :
    State.reset.lifecycle = .uninit ∧ (accel []).lifecycle = .configured ∧
      decode 0x10FFFF0000000000#64 = .ok (.initA 255#8 255#8) ∧
      fieldOpc 0x1000000100000000#64 = fieldOpc 0x1000000000000000#64 ∧
      0x1000000100000000#64 &&& 0xFF0000FFFFFFFFFF#64 ≠ 0x1000000000000000#64 := ⟨rfl, rfl, rfl, by decide, by decide⟩

theorem witness_InitBConfiguresBitClocked :
    State.reset.lifecycle = .uninit ∧ (clocked 0#16 0#1).lifecycle = .configured ∧
      (0#8 : PinId) ≠ 1#8 ∧ (0#8 : PinId) ≠ 255#8 ∧ (1#8 : PinId) ≠ 255#8 ∧
      decode 0x110001FF00000000#64 = .ok (.initB 0#8 1#8 255#8) ∧
      fieldOpc 0x1100000000000001#64 = fieldOpc 0x1100000000000000#64 ∧
      0x1100000000000001#64 &&& 0xFF000000FFFFFFFF#64 ≠ 0x1100000000000000#64 :=
  ⟨rfl, rfl, by decide, by decide, by decide, rfl, by decide, by decide⟩

/-- A configured block with an INIT.B at its port, and one with a READ at its port. -/
theorem witness_InitializationHappensOnce :
    (({ accel [] with hostQueue := [.command 0x1100000000000000#64] } : State).lifecycle = .configured ∧
      decode 0x1100000000000000#64 = .ok (.initB 0#8 0#8 0#8) ∧ (Instr.initB 0#8 0#8 0#8).opcode = .initB) ∧
    (({ accel [0#8, 0#8, 0#8, 0#8] with hostQueue := [.command 0x2000000000000000#64] } : State).lifecycle = .configured ∧
      [HostInput.command 0x2000000000000000#64].head? ≠ some .reset ∧
      (nextOf (step { accel [0#8, 0#8, 0#8, 0#8] with hostQueue := [.command 0x2000000000000000#64] })).isSome = true) :=
  ⟨⟨rfl, rfl, rfl⟩, rfl, by decide, by decide +kernel⟩

/-- V-A06. -/
theorem witness_AcceleratedTransferExchangesFourBytes :
    (accel [0x12#8, 0x34#8, 0x56#8, 0x78#8]).busAnswers = [0x12#8, 0x34#8, 0x56#8, 0x78#8] ∧
      0x12#8 ++ 0x34#8 ++ 0x56#8 ++ 0x78#8 = 0x12345678#32 := by decide

/-- The clauses of the delay split at both ends: D = 0, D = 1 and D = 65535. -/
theorem witness_DelaySplitsIntoHalves :
    delayLow 0#16 = 0#16 ∧ delayHigh 0#16 = 0#16 ∧ delayLow 1#16 = 1#16 ∧ delayHigh 1#16 = 0#16 ∧
      delayLow 65535#16 = 32768#16 ∧ delayHigh 65535#16 = 32767#16 := by decide

/-- V-B09 and V-B10: the first sample is bit 31, the last is bit 0. -/
theorem witness_ClockedTransferShiftsMsbFirst :
    (xferB { clocked 0#16 0#1 with pinAnswers := 1#1 :: List.replicate 31 0#1 }).1 = 0x80000000#32 ∧
      (xferB { clocked 0#16 0#1 with pinAnswers := List.replicate 31 0#1 ++ [1#1] }).1 = 0x00000001#32 := by decide +kernel

/-- V-B01: samples 0 and 31 are 1, so frame bits 31 and 0 are, and the transfer has 98 events. -/
theorem witness_ClockedTransferEmitsItsBitGroups :
    (xferB { clocked 0#16 0#1 with pinAnswers := 1#1 :: (List.replicate 30 0#1 ++ [1#1]) }).1 = 0x80000001#32 ∧
      (xferB (clocked 0#16 0#1)).2.trace.length = 5 + 98 := by decide +kernel

theorem witness_ReadSelectsTheSensorOnce :
    LineInv { clocked 4#16 1#1 with hostQueue := [] } ∧ (clocked 4#16 1#1).lifecycle = .configured :=
  ⟨clocked_lineInv _ _ _, rfl⟩

theorem witness_DecodeWritesTheCachedFields : (0xFFFFFFFE#32 : Frame) ≠ 0xFFFFFFFF#32 := by decide

/-- Two frames that differ in the three ignored bits; V-D18 for the fault bit. -/
theorem witness_ReservedFrameBitsAreIgnored :
    (0xFFFFFFF7#32 : Frame) ≠ Config.sentinel ∧ (0xFFFCFFF7#32 : Frame) ≠ Config.sentinel ∧
      (0xFFFFFFF7#32 : Frame) &&& 0xFFFCFFF7#32 = 0xFFFCFFF7#32 &&& 0xFFFCFFF7#32 ∧
      (0x00010000#32 : Frame).getLsbD 16 = true ∧ (0x00010000#32 : Frame).extractLsb' 0 3 = 0#3 := by decide

/-- The four corners of the two grids. -/
theorem witness_FrameRoundTrip :
    encodeFrame 0#3 (-2048) (-8192) = 0x80008000#32 ∧ encodeFrame 0#3 2047 8191 = 0x7FFC7FF0#32 := by decide +kernel

/-- An uninitialized state, a sentinel transfer, and a transfer one bit away from it (V-A04). -/
theorem witness_ReadTransfersAndDecodes :
    State.reset.lifecycle = .uninit ∧ (accel [0xFF#8, 0xFF#8, 0xFF#8, 0xFE#8]).lifecycle = .configured ∧
      transferFrame (clocked 0#16 1#1) = 0xFFFFFFFF#32 ∧
      transferFrame (accel [0xFF#8, 0xFF#8, 0xFF#8, 0xFE#8]) = 0xFFFFFFFE#32 ∧ (0xFFFFFFFE#32 : Frame) ≠ 0xFFFFFFFF#32 ∧
      fieldOpc 0x2000000000000001#64 = fieldOpc 0x2000000000000000#64 := by decide +kernel

theorem witness_SentinelReadIsNotFatal :
    (accel [0xFF#8, 0xFF#8, 0xFF#8, 0xFF#8]).lifecycle = .configured ∧
      transferFrame (accel [0xFF#8, 0xFF#8, 0xFF#8, 0xFF#8]) = Config.sentinel := by decide +kernel

theorem witness_StaleAnswersSurviveAFailure :
    (clocked 2#16 1#1).lifecycle = .configured ∧ transferFrame (clocked 2#16 1#1) = Config.sentinel := by decide +kernel

/-- A READ at the port of a bit-clocked block whose sensor is silent: its 32 samples read 1, and after it no READ comes. -/
theorem witness_PulledUpDisconnectionIsDetected :
    PullUpFitted (fun _ _ => false) { clocked 0#16 1#1 with hostQueue := [.command 0x2000000000000000#64] } ∧
      nextIsRead (hostRun 0 { clocked 0#16 1#1 with hostQueue := [.command 0x2000000000000000#64] }) = true ∧
      SensorSilent (fun _ _ => false) { clocked 0#16 1#1 with hostQueue := [.command 0x2000000000000000#64] } := by
  have idle (n : Nat) (s : State) (h : s.hostQueue = []) : hostRun n s = s := by
    induction n with
    | zero => rfl
    | succ n ih => rw [hostRun, hostStep, step, nextInput, h]; exact ih
  have after : (hostRun 1 { clocked 0#16 1#1 with hostQueue := [.command 0x2000000000000000#64] }).hostQueue = [] := by
    decide +kernel
  refine ⟨fun n hn => ?_, by decide, fun _ _ => rfl⟩
  match n with
  | 0 =>
    intro k hk _
    show (clocked 0#16 1#1).pinAnswerAt k = 1#1
    have all : ∀ k, k < 32 → (clocked 0#16 1#1).pinAnswerAt k = 1#1 := by decide +kernel
    exact all k hk
  | n + 1 =>
    rw [show hostRun (n + 1) _ = hostRun n (hostRun 1 _) from rfl, idle n _ after] at hn
    simp [nextIsRead, after] at hn

/-- No data, the fast path, the slow path. -/
theorem witness_GetptReturnsTheProbeTemperature :
    State.reset.hasData = false ∧ (reading 0#14 0#12 0#32 native).hasData = true ∧
      f32Eq (reading 0#14 0#12 0#32 native).seebeck State.reset.params.nativeSeebeck = true ∧
      f32Eq (reading 0#14 0#12 0#32 0x42500000#32).seebeck State.reset.params.nativeSeebeck = false := by decide

/-- The premises of each clause, on V-Q03 (1.5 is six quarters; the sum is 161.5), V-Q06, -999 + 999, V-Q08 and V-Q09. -/
theorem witness_FastPathIsTheRoundedSum :
    (∀ offset : F32, (reading 0x0280#14 0x019#12 offset native).hasData = true ∧
      f32Eq (reading 0x0280#14 0x019#12 offset native).seebeck (reading 0x0280#14 0x019#12 offset native).params.nativeSeebeck = true) ∧
    (f32IsFinite (reading 0x0280#14 0x019#12 0x3FC00000#32 native).calOffset = true ∧
      f32IsFinite 0x43218000#32 = true ∧
      f32Value 0x43218000#32 = probeTemp (reading 0x0280#14 0x019#12 0x3FC00000#32 native).probeCode + f32Value 0x3FC00000#32) ∧
    (f32Value 0x3FC00000#32 = ((6 : ℤ) : ℚ) / 4 ∧ |((6 : ℤ) : ℚ) / 4| < 2 ^ 21) ∧
    ((reading 0#14 0#12 0x80000000#32 native).probeCode = 0#14 ∧
      (reading 0#14 0#12 0x80000000#32 native).calOffset = 0x80000000#32) ∧
    (probeTemp (reading 0x3064#14 0#12 0x4479C000#32 native).probeCode + f32Value 0x4479C000#32 = 0 ∧
      f32IsFinite 0x4479C000#32 = true) ∧
    f32IsInf (reading 0x0280#14 0x019#12 0x7F800000#32 native).calOffset = true ∧
    f32IsNaN (reading 0x0280#14 0x019#12 0x7FC00000#32 native).calOffset = true := by
  have h : f32Eq native Params.defaults.nativeSeebeck = true := by decide
  exact ⟨fun _ => ⟨rfl, h⟩, by decide +kernel, by decide +kernel, ⟨rfl, rfl⟩, by decide +kernel, by decide, by decide⟩

/-- The implied voltage of a state. -/
def impliedVoltage (s : State) : F32 :=
  f32Mul s.params.nativeSeebeck (f32Sub (f32Exact (probeTemp s.probeCode)) (f32Exact (intTemp s.intCode)))

/-- A reading that takes the slow path. -/
def slowReading (s : State) : Bool := s.hasData && !f32Eq s.seebeck s.params.nativeSeebeck

/-- The premises of each clause: a NaN and an infinite offset on V-Q12's codes, then V-Q23, V-Q22, V-Q20, V-Q21 and V-Q15. -/
theorem witness_SlowPathCorners :
    (slowReading (reading 0x0280#14 0x019#12 0x7FC00000#32 0x42500000#32) = true ∧ f32IsNaN 0x7FC00000#32 = true) ∧
    (slowReading (reading 0x0280#14 0x019#12 0xFF800000#32 0x42500000#32) = true ∧ f32IsInf 0xFF800000#32 = true ∧
      f32IsFinite (f32Add (f32Div (impliedVoltage (reading 0x0280#14 0x019#12 0xFF800000#32 0x42500000#32)) 0x42500000#32)
        (f32Exact (intTemp 0x019#12))) = true) ∧
    (slowReading (reading 0x0280#14 0x019#12 0#32 0x7FC00000#32) = true ∧ f32IsNaN 0x7FC00000#32 = true) ∧
    (slowReading (reading 0x0280#14 0x019#12 0#32 0x7F800000#32) = true ∧ f32IsInf 0x7F800000#32 = true ∧
      f32IsFinite (impliedVoltage (reading 0x0280#14 0x019#12 0#32 0x7F800000#32)) = true) ∧
    (slowReading (reading 0x0280#14 0x019#12 0#32 0x80000000#32) = true ∧ f32IsZero 0x80000000#32 = true ∧
      f32IsNaN (impliedVoltage (reading 0x0280#14 0x019#12 0#32 0x80000000#32)) = false ∧
      f32IsZero (impliedVoltage (reading 0x0280#14 0x019#12 0#32 0x80000000#32)) = false ∧ f32IsFinite 0#32 = true) ∧
    (slowReading (reading 0x0064#14 0x190#12 0#32 0#32) = true ∧ f32IsZero 0#32 = true ∧
      f32IsZero (impliedVoltage (reading 0x0064#14 0x190#12 0#32 0#32)) = true) ∧
    (slowReading (reading 0x0064#14 0x190#12 0#32 0x42500000#32) = true ∧ f32IsFinite 0x42500000#32 = true ∧
      f32IsZero 0x42500000#32 = false ∧ f32IsFinite native = true ∧ probeTemp 0x0064#14 = intTemp 0x190#12) := by
  decide +kernel

theorem witness_OffsetIsAddedLastAndOnlyToTheProbe : (reading 0#14 0#12 0#32 native).hasData = true := rfl

theorem witness_GetitReturnsTheInternalTemperature :
    State.reset.hasData = false ∧ (reading 0#14 0x800#12 0#32 native).hasData = true ∧
      fieldOpc 0x3100000000000001#64 = fieldOpc 0x3100000000000000#64 := by decide

/-- The three readings of the rule: reset, a failed first read, a good read then a failure. -/
theorem witness_GetstReturnsStatusAndHasData :
    State.reset.hasData = false ∧ State.reset.status = 0x80#8 ∧
      ({ accel [] with status := 0x81#8 } : State).hasData = false ∧
      ({ reading 0#14 0#12 0#32 native with status := 0x81#8 } : State).hasData = true := ⟨rfl, rfl, rfl, rfl⟩

theorem reset_regInv : RegInv State.reset :=
  ⟨.inr (.inl rfl), by decide, by decide, by decide, by decide⟩

theorem witness_GettsReturnsTheTimestamp :
    RegInv State.reset ∧ State.reset.hasData = false ∧
      transferFrame (accel [0xFF#8, 0xFF#8, 0xFF#8, 0xFF#8]) = Config.sentinel ∧
      (nextOf (exec .read (accel [0xFF#8, 0xFF#8, 0xFF#8, 0xFF#8]))).isSome = true :=
  ⟨reset_regInv, rfl, by decide +kernel, by decide +kernel⟩

theorem witness_QueriesHaveNoSideEffects :
    (Instr.setofs 0#32 ≠ .read) ∧ (nextOf (exec (.setofs 0#32) State.reset)).isSome = true := by decide

theorem witness_NoTemperatureIsAlsoAReading :
    (reading 0x3064#14 0#12 0#32 native).hasData = true ∧ (reading 0x3064#14 0#12 0#32 native).probeCode = 0x3064#14 ∧
      (reading 0x3064#14 0#12 0#32 native).calOffset = 0x00000000#32 ∧
      f32Eq (reading 0x3064#14 0#12 0#32 native).seebeck State.reset.params.nativeSeebeck = true := by decide

/-- A word of the row with one reserved bit set. -/
theorem witness_SetofsStoresTheOffset :
    fieldOpc 0x4000000100000000#64 = fieldOpc 0x4000000000000000#64 ∧
      0x4000000100000000#64 &&& 0xFFFFFFFF00000000#64 ≠ 0x4000000000000000#64 := by decide

/-- A positive native coefficient, and a NaN, a zero of each sign and a negative coefficient. -/
theorem witness_SetsbkStoresTheCoefficient :
    (reading 0#14 0#12 0#32 native).hasData = true ∧ f32Sign State.reset.params.nativeSeebeck = false ∧
      f32IsZero State.reset.params.nativeSeebeck = false ∧
      f32IsNaN State.reset.params.nativeSeebeck = false ∧ f32IsNaN 0x7FC00000#32 = true ∧ f32IsZero 0x00000000#32 = true ∧
      f32IsZero 0x80000000#32 = true ∧ f32Sign 0xC2251AA0#32 = true := by decide

theorem witness_SetfrqStoresTheFrequency :
    (accel []).lifecycle = .configured ∧ (accel []).transport = .accel ∧ (clocked 0#16 0#1).transport = .bitclk :=
  ⟨rfl, rfl, rfl⟩

theorem witness_SetdlyStoresTheDelay :
    (accel []).transport = .accel ∧ (65535#16).toNat % 2 = 1 ∧ fieldOpc 0x4300000000010000#64 = fieldOpc 0x4300000000000000#64 ∧
      (clocked 0#16 0#1).lifecycle = .configured ∧ (clocked 0#16 0#1).transport = .bitclk ∧
      0x4300000000010000#64 &&& 0xFFFFFFFFFFFF0000#64 ≠ 0x4300000000000000#64 := by decide

theorem witness_SettersKeepTheReading :
    (Instr.setofs 0#32).opcode = .setofs ∧ (Instr.setsbk 0#32).opcode = .setsbk ∧ (Instr.setfrq 0#32).opcode = .setfrq ∧
      (Instr.setdly 0#16).opcode = .setdly := ⟨rfl, rfl, rfl, rfl⟩

theorem witness_OnlyReadWritesTheCache :
    (nextOf (step (port 0x4000000000000000#64))).isSome = true ∧
      (port 0x4000000000000000#64).hostQueue.head? ≠ some .reset ∧
      decode 0x4000000000000000#64 = .ok (.setofs 0#32) ∧ Instr.setofs 0#32 ≠ .read :=
  ⟨by decide, by decide, rfl, by decide⟩

/-- A READ of each transport and an INIT.B; collaborators that return; and a first sample that does not: three primitives are
issued, chip-select, clock, sample. -/
theorem witness_EventsPerCommandAreBounded :
    ((nextOf (exec .read (clocked 0#16 0#1))).isSome = true ∧
      (nextOf (exec .read (accel [0#8, 0#8, 0#8, 0#8]))).isSome = true ∧
      (nextOf (exec (.initB 10#8 13#8 12#8) State.reset)).isSome = true) ∧
    CollaboratorsReturn (fun _ _ => true) (port 0x100A000000000000#64) ∧
    ((primitives { clocked 0#16 0#1 with hostQueue := [.command 0x2000000000000000#64] })[2]? =
        some (.event (.pinRead 12#8 0#1)) ∧ (Primitive.event (.pinRead 12#8 0#1)).waits = true ∧
      (issued (fun i => i != 2) 0
        (primitives { clocked 0#16 0#1 with hostQueue := [.command 0x2000000000000000#64] })).length = 3) :=
  ⟨by decide +kernel, fun _ _ _ _ _ => rfl, by decide +kernel⟩

theorem witness_EveryAcceptedCommandRespondsOnce :
    (nextOf (exec (.initA 10#8 0#8) State.reset)).isSome = true ∧
      refusedOf (step (port 0x2000000000000000#64)) = some .notInitialized := by decide

theorem witness_UninitializedBlockAcceptsAllButRead :
    RegInv State.reset ∧ State.reset.lifecycle = .uninit ∧ Instr.getpt ≠ .read ∧ Instr.getpt.wellFormed = true :=
  ⟨reset_regInv, rfl, by decide, rfl⟩

/-- One word for each outcome of the order. -/
theorem witness_RefusalsFollowTheirOrder :
    refusedOf (step (port 0x0000000000000001#64)) = some .illegalOpcode ∧
      refusedOf (step (port 0x2000000000000001#64)) = some .reservedField ∧
      refusedOf (step { accel [] with hostQueue := [.command 0x1100000000000000#64] }) = some .reinit ∧
      refusedOf (step (port 0x2000000000000000#64)) = some .notInitialized ∧
      refusedOf (step (port 0x1101020200000000#64)) = some .pinConflict ∧
      (nextOf (step (port 0x3000000000000000#64))).isSome = true := by decide

theorem witness_RefusalMarkIsKept :
    (hostStep (port 0x2000000000000000#64)).refusalMark = some .notInitialized := by decide

/-- An unmarked state whose run meets a refusal, and one whose run meets none. -/
theorem witness_UnmarkedRunsAreTheRunsOfTheMachine :
    NoRefusal (port 0x2000000000000000#64) ∧ ¬ NoRefusal (hostRun 1 (port 0x2000000000000000#64)) ∧
      NoRefusal (hostRun 1 (port 0x3000000000000000#64)) :=
  ⟨rfl, by unfold NoRefusal; decide, by unfold NoRefusal; decide⟩

/-- 70 R233: a reset queued after the last command is not applied, so that command's response and register write are observed;
a reset before it is. A run with no command coming is at its end (log 18). A refused command can be the last one. -/
theorem test_end_of_run :
    (finalState { accel [] with hostQueue := [.reset, .command 0x42000000003D0901#64, .reset] }).spiFreqHz = 4000001#32 ∧
      (finalState { accel [] with hostQueue := [.reset, .command 0x42000000003D0901#64, .reset] }).lifecycle = .uninit ∧
      (finalState { accel [] with hostQueue := [.reset] }).lifecycle = .configured ∧
      (finalState { port 0x2000000000000000#64 with
        hostQueue := [.command 0x42000000003D0901#64, .command 0x2000000000000000#64, .reset] }).spiFreqHz = 4000001#32 := by
  decide +kernel

/-- Two blocks: the first is initialized on pin 10, the second on the pin given. -/
def pair (cs : PinId) : List State := [accel [], { port 0x1000000000000000#64 with
  hostQueue := [.command (encode (.initA cs 0#8))] }]

/-- Two blocks on one bus with different chip-selects step, and the step changes the one that takes it; with equal chip-selects
there is no such step (60 R210); two blocks that share a pin already have none at all. -/
theorem witness_BlocksAreIndependent :
    linesExclusive (pair 9#8) = true ∧ linesExclusive ((pair 9#8).modify 1 hostStep) = true ∧
      ((stepBlock (pair 9#8) 1).map (fun next => (next[0]? == (pair 9#8)[0]?, next[1]? == (pair 9#8)[1]?))) =
        some (true, false) ∧
      stepBlock (pair 10#8) 1 = none ∧
      (10#8 ∈ (accel []).ownedPins ∧ 10#8 ∈ (clocked 0#16 0#1).ownedPins ∧
        stepBlock [accel [], clocked 0#16 0#1] 0 = none) ∧
      (Event.pinWrite 9#8 .high ∈ (hostStep { port 0x1000000000000000#64 with
        hostQueue := [.command (encode (.initA 9#8 0#8))] }).trace.drop 0) := by decide +kernel

/-- An operand of each kind: a NaN, infinities of both signs, a zero, a nonzero finite value. -/
theorem witness_Binary32SpecialOperands :
    f32IsNaN 0x7FC00000#32 = true ∧ f32IsInf 0x7F800000#32 = true ∧ f32IsInf 0xFF800000#32 = true ∧
      f32Sign 0x7F800000#32 ≠ f32Sign 0xFF800000#32 ∧ f32IsFinite 0x80000000#32 = true ∧ f32IsZero 0x80000000#32 = true ∧
      f32IsFinite 0x3F800000#32 = true ∧ f32IsZero 0x3F800000#32 = false := by decide

/-- Finite operands, a nonzero divisor, exact zeros, the two sides of the overflow bound, and a rational that a binary32 equals. -/
theorem witness_Binary32OperationsRoundOnce :
    f32IsFinite 0x7F7FFFFF#32 = true ∧ f32IsZero 0x00000001#32 = false ∧
      f32Add 0x7F7FFFFF#32 0x73000000#32 = 0x7F800000#32 ∧ f32Add 0x7F7FFFFF#32 0x72FFFFFF#32 = 0x7F7FFFFF#32 ∧
      f32Value 0x3FC00000#32 + f32Value 0xBFC00000#32 = 0 ∧ f32Value 0x80000000#32 - f32Value 0x00000000#32 = 0 ∧
      f32IsZero 0x80000000#32 = true ∧ f32Value 0x3FC00000#32 = 3 / 2 := by decide +kernel

theorem witness_FastPathTestIsBitEquality :
    f32IsNaN State.reset.params.nativeSeebeck = false ∧ f32IsZero State.reset.params.nativeSeebeck = false := by decide

end Sys2Proof.Tests
end

section
/-! Responses (30_encoding.md R75): one response word per accepted command, none for a refused one. -/

namespace Sys2Proof.Machine

/-- The word GETST returns, bit by bit: `STATUS` in bits 7:0, `HAS_DATA` in bit 8, zeros above (44_reader_commands.md R171). -/
theorem statusReport_getLsbD (hasData : Bool) (status : Byte) (k : Nat) :
    (statusReport hasData status).getLsbD k = if k < 8 then status.getLsbD k else (k == 8 && hasData) := by
  rw [statusReport, BitVec.getLsbD_setWidth, BitVec.getLsbD_append, BitVec.getLsbD_ofBool]
  by_cases hk : k < 8
  · simp [hk, show k < 32 by omega]
  · by_cases h8 : k = 8
    · simp [h8]
    · simp [hk, h8, show ¬ k - 8 = 0 by omega]

/-- Bits 7:0 of the word GETST returns are `STATUS` (R171). -/
theorem statusReport_status (hasData : Bool) (status : Byte) : (statusReport hasData status).extractLsb' 0 8 = status := by
  apply BitVec.eq_of_getLsbD_eq
  intro k hk
  rw [BitVec.getLsbD_extractLsb', statusReport_getLsbD]
  simp [hk]

/-- Bits 31:9 of the word GETST returns are zero (R171). -/
theorem statusReport_upper (hasData : Bool) (status : Byte) : (statusReport hasData status).extractLsb' 9 23 = 0#23 := by
  apply BitVec.eq_of_getLsbD_eq
  intro k hk
  rw [BitVec.getLsbD_extractLsb', statusReport_getLsbD]
  simp [show ¬ 9 + k < 8 by omega, show ¬ 9 + k = 8 by omega]

/-- The response word of R75's table for a command that takes `s` to `t`. -/
def responseWord (i : Instr) (s t : State) : Word :=
  match i with
  | .read => statusWord t.status
  | .getpt => probeReading s
  | .getit => internalReading s
  | .getst => statusReport s.hasData s.status
  | .getts => s.lastReadTs
  | .initA _ _ | .initB _ _ _ | .setofs _ | .setsbk _ | .setfrq _ | .setdly _ => 0x00000000#32

/-- The transfer and the decode of a READ return nothing to the host: the response comes after them (R163). -/
@[simp] theorem readFrame_responses (s : State) : (readFrame s).responses = s.responses := by
  rw [readFrame_eq, decodeFrame_eq]
  split <;> rfl

/-- A refusal returns no response word (60_exceptions.md R203). -/
@[simp] theorem afterRefusal_responses (s : State) (r : Refusal) : (afterRefusal s r).responses = s.responses := rfl

/-- A command that answers a next state has appended its one response word, and no other. -/
theorem exec_next_responses (i : Instr) (s t : State) (h : exec i s = .next t) :
    t.responses = s.responses ++ [responseWord i s t] := by
  cases i with
  | initA cs bus => obtain ⟨-, rfl⟩ := execInitA_next cs bus s t h; rfl
  | initB cs clk data => obtain ⟨-, -, rfl⟩ := execInitB_next cs clk data s t h; rfl
  | read => obtain ⟨-, rfl⟩ := execRead_next s t h; simp [responseWord]
  | getpt | getit | getst | getts | setofs _ | setsbk _ | setfrq _ | setdly _ => injection h with h; subst h; rfl

/-- Settles O52: the word appended is `responseWord`, and a refusal leaves the list of responses alone. -/
theorem everyAcceptedCommandRespondsOnce : Obligations.EveryAcceptedCommandRespondsOnce := by
  refine ⟨fun i s t h => ⟨responseWord i s t, exec_next_responses i s t h, ?_⟩, fun s r h => ?_⟩
  · cases i with
    | getst => exact ⟨statusReport_getLsbD s.hasData s.status 8, statusReport_status .., statusReport_upper ..⟩
    | initA | initB | read | getpt | getit | getts | setofs | setsbk | setfrq | setdly => rfl
  · rw [hostStep_of_refused s r h, afterRefusal_responses]

end Sys2Proof.Machine
end

section
/-! Pseudo-instructions (30_encoding.md R83): each assembles as the one command it stands for. -/

namespace Sys2Proof.Machine

/-- `INIT cs` is `INIT.A cs, 0`, and both are errors where `cs` is no u8; with no operand text neither is a command. -/
theorem assembleTokens_init_one (p : Params) (a : List Char) :
    assembleTokens p ['I', 'N', 'I', 'T'] [a] = assembleTokens p ['I', 'N', 'I', 'T', '.', 'A'] [a, ['0']] := by
  have zero : parseInteger 8 ['0'] = some 0x00#8 := rfl
  rcases a with _ | ⟨x, xs⟩
  · rfl
  · cases h : parseInteger 8 (x :: xs) <;>
      simp [assembleTokens, assembleOne, assembleTwo, expandPseudo, zero, h]

/-- `INIT cs, clk, data` is `INIT.B cs, clk, data`. -/
theorem assembleTokens_init_three (p : Params) (a b c : List Char) :
    assembleTokens p ['I', 'N', 'I', 'T'] [a, b, c] = assembleTokens p ['I', 'N', 'I', 'T', '.', 'B'] [a, b, c] := by
  simp [assembleTokens, assembleThree, expandPseudo]

/-- `CLROFS` is SETOFS with the pattern of plus zero. -/
theorem assembleTokens_clrofs (p : Params) :
    assembleTokens p ['C', 'L', 'R', 'O', 'F', 'S'] [[]] = some (.setofs 0x00000000#32) := rfl

/-- `NATIVESBK` is SETSBK with the native pattern. -/
theorem assembleTokens_nativesbk (p : Params) :
    assembleTokens p ['N', 'A', 'T', 'I', 'V', 'E', 'S', 'B', 'K'] [[]] = some (.setsbk p.nativeSeebeck) := rfl

/-- `SETOFS 0x00000000`, the spelled-out form of `CLROFS`. -/
theorem assembleTokens_setofs_zero (p : Params) :
    assembleTokens p ['S', 'E', 'T', 'O', 'F', 'S'] [['0', 'x', '0', '0', '0', '0', '0', '0', '0', '0']] =
      some (.setofs 0x00000000#32) := rfl

/-- A line without a comment and without blanks around it is the word of the command that its mnemonic and its operands, split at
the commas, name. -/
theorem assembleLine_of_tokens {p : Params} {line m : List Char} {operands : List (List Char)} {i : Instr}
    (hline : trim (dropComment line) = line) (hne : line.isEmpty = false)
    (hm : line.takeWhile (fun c => !isBlank c) = m)
    (hops : (splitOperands (line.dropWhile (fun c => !isBlank c))).map trim = operands)
    (hi : assembleTokens p m operands = some i) : assembleLine p line = .word (encode i) := by
  simp [assembleLine, hline, hne, hm, hops, hi]

/-- The text `INIT 10` gives one command word (95_test_vectors.md V-E02). -/
theorem assembleLine_init_one (p : Params) :
    assembleLine p ['I', 'N', 'I', 'T', ' ', '1', '0'] = .word (encode (.initA 10#8 0#8)) :=
  assembleLine_of_tokens (m := ['I', 'N', 'I', 'T']) (operands := [['1', '0']])
    (by decide) (by decide) (by decide) (by decide) rfl

/-- The text `INIT 10, 13, 12` gives one command word (V-E05). -/
theorem assembleLine_init_three (p : Params) :
    assembleLine p ['I', 'N', 'I', 'T', ' ', '1', '0', ',', ' ', '1', '3', ',', ' ', '1', '2'] =
      .word (encode (.initB 10#8 13#8 12#8)) :=
  assembleLine_of_tokens (m := ['I', 'N', 'I', 'T']) (operands := [['1', '0'], ['1', '3'], ['1', '2']])
    (by decide) (by decide) (by decide) (by decide) rfl

/-- The text `CLROFS` gives the word of SETOFS with operand zero. -/
theorem assembleLine_clrofs (p : Params) :
    assembleLine p ['C', 'L', 'R', 'O', 'F', 'S'] = .word 0x4000000000000000#64 := by
  rw [assembleLine_of_tokens (by decide) (by decide) (by decide) (by decide) (assembleTokens_clrofs p)]
  decide

/-- The text `NATIVESBK` gives the word of SETSBK with the native pattern. -/
theorem assembleLine_nativesbk (p : Params) :
    assembleLine p ['N', 'A', 'T', 'I', 'V', 'E', 'S', 'B', 'K'] = .word (encode (.setsbk p.nativeSeebeck)) :=
  assembleLine_of_tokens (by decide) (by decide) (by decide) (by decide) (assembleTokens_nativesbk p)

/-- Settles O7: one lemma per pseudo-instruction, as tokens and as a line of text. -/
theorem pseudoInstructionsAssemble : Obligations.PseudoInstructionsAssemble := fun p a b c =>
  ⟨assembleTokens_init_one p a, assembleTokens_init_three p a b c,
    (assembleTokens_clrofs p).trans (assembleTokens_setofs_zero p).symm, assembleTokens_nativesbk p,
    assembleLine_init_one p, assembleLine_init_three p, assembleLine_clrofs p, assembleLine_nativesbk p⟩

end Sys2Proof.Machine
end

section
/-! Frame decoder (41_frame_decoder.md): what DECODE writes, the bits it ignores, and the temperatures its codes stand for. -/

namespace Sys2Proof.Machine

/-- Settles O27: the two cases of `decodeFrame_eq`. -/
theorem decodeWritesTheCachedFields : Obligations.DecodeWritesTheCachedFields :=
  ⟨fun s => (decodeFrame_eq _ s).trans (if_pos rfl), fun s w h => (decodeFrame_eq w s).trans (if_neg h)⟩

/-- A field that lies within a mask is the same before and after masking. -/
theorem extractLsb'_and_of_allOnes {w i n : Nat} (x m : BitVec w) (h : m.extractLsb' i n = BitVec.allOnes n) :
    (x &&& m).extractLsb' i n = x.extractLsb' i n := by
  rw [BitVec.extractLsb'_and, h, BitVec.and_allOnes]

/-- `0xFFFCFFF7`, the frame without bits 3, 16 and 17, keeps the status field. -/
theorem frameStat_and_mask (w : Frame) : frameStat (w &&& 0xFFFCFFF7#32) = frameStat w :=
  extractLsb'_and_of_allOnes w _ (by decide)

/-- `0xFFFCFFF7` keeps the internal code. -/
theorem frameIntCode_and_mask (w : Frame) : frameIntCode (w &&& 0xFFFCFFF7#32) = frameIntCode w :=
  extractLsb'_and_of_allOnes w _ (by decide)

/-- `0xFFFCFFF7` keeps the probe code. -/
theorem frameProbeCode_and_mask (w : Frame) : frameProbeCode (w &&& 0xFFFCFFF7#32) = frameProbeCode w :=
  extractLsb'_and_of_allOnes w _ (by decide)

/-- Away from the sentinel, what DECODE does depends on the three fields of the frame alone. -/
theorem decodeFrame_congr {w w' : Frame} (hw : w ≠ Config.sentinel) (hw' : w' ≠ Config.sentinel)
    (hstat : frameStat w = frameStat w') (hint : frameIntCode w = frameIntCode w')
    (hprobe : frameProbeCode w = frameProbeCode w') (s : State) : decodeFrame w s = decodeFrame w' s := by
  rw [decodeFrame_eq, decodeFrame_eq, if_neg hw, if_neg hw', hstat, hint, hprobe]

/-- DECODE leaves in `STATUS` what `frameStatus` makes of the frame. -/
theorem decodeFrame_status (w : Frame) (s : State) : (decodeFrame w s).status = frameStatus w := by
  unfold decodeFrame
  split <;> rfl

/-- A frame with clear status bits is not the sentinel and leaves `STATUS` 0. -/
theorem frameStatus_of_frameStat_zero {w : Frame} (h : frameStat w = 0#3) : frameStatus w = 0x00#8 := by
  have hw : w ≠ Config.sentinel := by rintro rfl; exact absurd h (by decide)
  simp [frameStatus, isSentinel, hw, h]

/-- Settles O28: masking the three bits out keeps every field that DECODE reads. -/
theorem reservedFrameBitsAreIgnored : Obligations.ReservedFrameBitsAreIgnored := by
  refine ⟨fun s w w' hw hw' h => decodeFrame_congr hw hw' ?_ ?_ ?_ s, fun s w _ hstat => ?_⟩
  · rw [← frameStat_and_mask, h, frameStat_and_mask]
  · rw [← frameIntCode_and_mask, h, frameIntCode_and_mask]
  · rw [← frameProbeCode_and_mask, h, frameProbeCode_and_mask]
  · rw [decodeFrame_status, frameStatus_of_frameStat_zero hstat]

/-- A magnitude of `n` bits at resolution `lsb`, below which a sign bit takes `2 ^ n` steps off, stays within `2 ^ n` steps
below zero and `2 ^ n - 1` steps above it. -/
theorem biased_bounds (neg : Bool) (n k : ℕ) {lsb : ℚ} (hlsb : 0 < lsb) :
    -(2 ^ n * lsb) ≤ (if neg then -(2 ^ n * lsb) else 0) + ((k % 2 ^ n : ℕ) : ℚ) * lsb ∧
      (if neg then -(2 ^ n * lsb) else 0) + ((k % 2 ^ n : ℕ) : ℚ) * lsb ≤ (2 ^ n - 1) * lsb := by
  have hlt : k % 2 ^ n + 1 ≤ 2 ^ n := Nat.mod_lt k (by positivity)
  have hmag : ((k % 2 ^ n : ℕ) : ℚ) * lsb ≤ (2 ^ n - 1) * lsb := by
    gcongr
    rw [le_sub_iff_add_le]
    exact_mod_cast hlt
  have hpow : 0 < 2 ^ n * lsb := by positivity
  have hnonneg : 0 ≤ ((k % 2 ^ n : ℕ) : ℚ) * lsb := by positivity
  cases neg
  · rw [if_neg Bool.false_ne_true]
    constructor <;> linarith
  · rw [if_pos rfl]
    constructor <;> linarith

/-- `int_temp(k)` is the magnitude `k[10:0]` in sixteenths, less 128 when `k[11]` is set (R104). -/
theorem intTemp_eq (k : BitVec 12) :
    intTemp k = (if k.getLsbD 11 then -128 else 0) + ((k.toNat % 2 ^ 11 : ℕ) : ℚ) * 0.0625 := by
  simp only [intTemp, BitVec.msb_eq_getLsbD_last, BitVec.extractLsb'_toNat, Nat.shiftRight_zero,
    Config.intBias, Config.intLsb]
  split <;> norm_num

/-- `probe_temp(k)` is the magnitude `k[12:0]` in quarters, less 2048 when `k[13]` is set (R105). -/
theorem probeTemp_eq (k : BitVec 14) :
    probeTemp k = (if k.getLsbD 13 then -2048 else 0) + ((k.toNat % 2 ^ 13 : ℕ) : ℚ) * 0.25 := by
  simp only [probeTemp, BitVec.msb_eq_getLsbD_last, BitVec.extractLsb'_toNat, Nat.shiftRight_zero,
    Config.probeBias, Config.probeLsb]
  split <;> norm_num

/-- Every internal code stands for a temperature from -128 to 127.9375 (R104). -/
theorem intTemp_bounds (k : BitVec 12) : -128 ≤ intTemp k ∧ intTemp k ≤ 127.9375 := by
  have h := biased_bounds (k.getLsbD 11) 11 k.toNat (lsb := 0.0625) (by norm_num)
  rw [show (2 : ℚ) ^ 11 * 0.0625 = 128 by norm_num, show ((2 : ℚ) ^ 11 - 1) * 0.0625 = 127.9375 by norm_num] at h
  rwa [intTemp_eq]

/-- Every probe code stands for a temperature from -2048 to 2047.75 (R105). -/
theorem probeTemp_bounds (k : BitVec 14) : -2048 ≤ probeTemp k ∧ probeTemp k ≤ 2047.75 := by
  have h := biased_bounds (k.getLsbD 13) 13 k.toNat (lsb := 0.25) (by norm_num)
  rw [show (2 : ℚ) ^ 13 * 0.25 = 2048 by norm_num, show ((2 : ℚ) ^ 13 - 1) * 0.25 = 2047.75 by norm_num] at h
  rwa [probeTemp_eq]

/-- Settles O30: the two formulas with their bounds, then the corner and the worked example of each by computation. -/
theorem temperatureFormulas : Obligations.TemperatureFormulas :=
  ⟨fun k => ⟨intTemp_eq k, intTemp_bounds k⟩, fun k => ⟨probeTemp_eq k, probeTemp_bounds k⟩,
    by decide +kernel, by decide +kernel, by decide +kernel, by decide +kernel⟩

end Sys2Proof.Machine
end

section
/-! Bit-clocked transport (43_bitclocked_transport.md): the halves of the delay, the events of a transfer, the bits of its frame. -/

namespace Sys2Proof.Machine

/-- `dHigh` is floor(D/2) (R143). -/
theorem delayHigh_toNat (d : BitVec 16) : (delayHigh d).toNat = d.toNat / 2 := by
  rw [delayHigh, BitVec.toNat_ushiftRight, Nat.shiftRight_one]

/-- `dLow` is D less floor(D/2): the subtraction does not wrap (R143). -/
theorem delayLow_toNat (d : BitVec 16) : (delayLow d).toNat = d.toNat - d.toNat / 2 := by
  have hle : delayHigh d ≤ d := by rw [BitVec.le_def, delayHigh_toNat]; exact Nat.div_le_self ..
  rw [delayLow, BitVec.toNat_sub_of_le hle, delayHigh_toNat]

/-- Settles O23: the arithmetic of the two halves, and a half-delay of zero, which has no events. -/
theorem delaySplitsIntoHalves : Obligations.DelaySplitsIntoHalves := by
  refine ⟨fun d => ?_, fun s n => ?_⟩
  · rw [delayHigh_toNat, delayLow_toNat]
    omega
  · exact if_congr BitVec.toNat_inj.symm rfl rfl

/-- Settles O21: `xferB` returns the frame of its samples, whose bits `clockedFrame_getLsbD` gives. -/
theorem clockedTransferShiftsMsbFirst : Obligations.ClockedTransferShiftsMsbFirst := by
  intro s k hk
  rw [xferB_eq, clockedFrame_getLsbD s k hk]

/-- A half-delay has one event, or none when it is zero (R143). -/
@[simp] theorem delayEvents_length (n : BitVec 16) : (delayEvents n).length = if n = 0#16 then 0 else 1 := by
  unfold delayEvents
  split <;> rfl

/-- A bit group has its three pin events and the events of its two half-delays (R142). -/
@[simp] theorem bitGroup_length (clk data : PinId) (d : BitVec 16) (b : BitVec 1) :
    (bitGroup clk data d b).length = 3 + (delayEvents (delayLow d)).length + (delayEvents (delayHigh d)).length := by
  simp only [bitGroup, List.length_cons, List.length_append]
  omega

/-- A transfer has the two chip-select events and 32 bit groups of one length: 98, 130 or 162 events (R140). -/
theorem clockedEvents_length (s : State) :
    (clockedEvents s).length = if s.bitDelayUs = 0#16 then 98 else if s.bitDelayUs = 1#16 then 130 else 162 := by
  have hgroups : (clockedEvents s).length = 2 + 32 * (3 + (delayEvents (delayLow s.bitDelayUs)).length +
      (delayEvents (delayHigh s.bitDelayUs)).length) := by
    simp only [clockedEvents, List.length_cons, List.length_append, List.length_flatMap, bitGroup_length, List.map_const',
      List.sum_replicate, List.length_range, List.length_nil, smul_eq_mul]
    omega
  simp only [hgroups, delayEvents_length, ← BitVec.toNat_inj, delayLow_toNat, delayHigh_toNat, BitVec.toNat_ofNat]
  split_ifs <;> omega

/-- Settles O22: the closed form of `xferB`, its events being `clockedEvents`. -/
theorem clockedTransferEmitsItsBitGroups : Obligations.ClockedTransferEmitsItsBitGroups := by
  refine fun s => ⟨clockedTransferShiftsMsbFirst s, ?_, ?_⟩
  · rw [xferB_eq]
    rfl
  · rw [xferB_eq, List.length_append, clockedEvents_length]

end Sys2Proof.Machine
end

section
/-! Command words (30_encoding.md R74 to R80): the decoder inverts the encoder, and a word that its opcode's row does not select
is refused as a reserved field. -/

namespace Sys2Proof

/-- The word of every command is selected by its own row (R76, R80). -/
theorem encode_rowSelected (i : Instr) : Laws.RowSelected.Statement i := by
  cases i with
  | initA cs bus => exact Laws.RowSelected.initA cs bus
  | initB cs clk data => exact Laws.RowSelected.initB cs clk data
  | read => exact Laws.RowSelected.read
  | getpt => exact Laws.RowSelected.getpt
  | getit => exact Laws.RowSelected.getit
  | getst => exact Laws.RowSelected.getst
  | getts => exact Laws.RowSelected.getts
  | setofs w => exact Laws.RowSelected.setofs w
  | setsbk w => exact Laws.RowSelected.setsbk w
  | setfrq w => exact Laws.RowSelected.setfrq w
  | setdly us => exact Laws.RowSelected.setdly us

/-- The low half of IMM, for a word put together from its fields. -/
theorem fieldImmLow_commandWord (o a b c : BitVec 8) (w : BitVec 32) :
    fieldImmLow (commandWord o a b c w) = w.setWidth 16 := by
  apply BitVec.eq_of_toNat_eq
  simp only [fieldImmLow, BitVec.extractLsb'_toNat, commandWord_toNat, Nat.shiftRight_zero, BitVec.toNat_setWidth]
  omega

/-- IMM is its low half, zero-extended, where its high half is zero (R76). -/
theorem fieldImmLow_setWidth_of_high_zero (c : Command) (h : fieldImmHigh c = 0#16) :
    (fieldImmLow c).setWidth 32 = fieldImm c := by
  have hhigh := congrArg BitVec.toNat h
  apply BitVec.eq_of_toNat_eq
  simp only [fieldImmHigh, fieldImmLow, fieldImm, BitVec.extractLsb'_toNat, BitVec.toNat_setWidth, BitVec.toNat_ofNat,
    Nat.shiftRight_eq_div_pow] at hhigh ⊢
  omega

/-- The operands are assembled from the fields that the encoder put them in (R77). -/
theorem assemble_encode (i : Instr) : assemble i.opcode (encode i) = i := by
  cases i with
  | setdly us => simp [Instr.opcode, assemble, encode, fieldImmLow_commandWord]
  | _ => simp [Instr.opcode, assemble, encode, commandWord_fields]

/-- The word of a command decodes to that command. -/
theorem decode_encode (i : Instr) : decode (encode i) = .ok i := by
  obtain ⟨r, hr, hro, hsel⟩ := encode_rowSelected i
  obtain ⟨hopc, hzero⟩ := (row_selects r hr _).mp hsel
  rw [hro] at hopc hzero
  exact (decode_ok_iff _ _).mpr ⟨i.opcode, hopc.symm, hzero, assemble_encode i⟩

/-- A word with its opcode's byte and zero reserved fields is the word of the command that it assembles to. -/
theorem encode_assemble (o : Opcode) (c : Command) (hopc : o.byte = fieldOpc c) (hzero : reservedZero o c = true) :
    encode (assemble o c) = c := by
  conv_rhs => rw [← commandWord_of_fields c, ← hopc]
  cases o with
  | setdly =>
    simp only [reservedZero, Bool.and_eq_true, beq_iff_eq] at hzero
    obtain ⟨⟨⟨ha, hb⟩, hc⟩, himm⟩ := hzero
    simp [assemble, encode, Instr.opcode, ha, hb, hc, fieldImmLow_setWidth_of_high_zero c himm]
  | _ =>
    simp only [reservedZero, Bool.and_eq_true, beq_iff_eq] at hzero
    simp [assemble, encode, Instr.opcode, hzero]

/-- A command is decoded from its own word and from no other (R76, R80). -/
theorem decode_eq_ok_iff (c : Command) (i : Instr) : decode c = .ok i ↔ c = encode i := by
  constructor
  · intro h
    obtain ⟨o, hopc, hzero, rfl⟩ := (decode_ok_iff c i).mp h
    exact (encode_assemble o c hopc hzero).symm
  · rintro rfl
    exact decode_encode i

/-- The pattern of a row carries its opcode's byte. -/
theorem row_fieldOpc_pattern (r : TableRow) (hr : r ∈ opcodeTable) : fieldOpc r.pattern = r.opcode.byte := by
  revert r
  decide

/-- A word with a row's opcode that the row does not select is refused as a reserved field (R78). -/
theorem othersReserved_of_mem (r : TableRow) (hr : r ∈ opcodeTable) : Machine.OthersReserved r.pattern r.mask := by
  intro c hopc hmask
  rw [row_fieldOpc_pattern r hr] at hopc
  have hsel : ¬ r.selects c = true := by simpa [TableRow.selects] using hmask
  have hzero : ¬ reservedZero r.opcode c = true := fun hz => hsel ((row_selects r hr c).mpr ⟨hopc, hz⟩)
  simp [decode, hopc, hzero]

end Sys2Proof
end

section
/-! Binary32 rounding (00_scope.md R9): `f32Round` gives the nearest binary32, ties to even, and is exact on every rational that a
binary32 equals. -/

namespace Sys2Proof.Machine

/-- A tie goes to the even integer. -/
theorem roundHalfEven_even_of_tie (x : ℚ) (hx : 0 ≤ x) (h : |(roundHalfEven x : ℚ) - x| = 1 / 2) :
    roundHalfEven x % 2 = 0 := by
  have hdiv : x.num.natAbs / x.den = ⌊x⌋₊ := by
    have hnum : ((x.num.natAbs : ℤ) : ℚ) = x.num := by rw [Int.natAbs_of_nonneg (Rat.num_nonneg.mpr hx)]
    rw [← Rat.natFloor_natCast_div_natCast, ← Int.cast_natCast x.num.natAbs, hnum, Rat.num_div_den]
  have hle := Nat.floor_le hx
  have hlt := Nat.lt_floor_add_one x
  revert h
  simp only [roundHalfEven, hdiv]
  split
  · intro h
    rw [abs_of_nonpos (by linarith)] at h
    linarith
  · split
    · intro h
      push_cast at h
      rw [abs_of_nonneg (by linarith)] at h
      linarith
    · split
      · exact fun _ => ‹_›
      · intro _
        omega

/-- Two integers equally near to a rational, one of them `roundHalfEven`: it is the even one. -/
theorem roundHalfEven_even_of_equidistant (x : ℚ) (hx : 0 ≤ x) (z : ℤ) (hz : z ≠ roundHalfEven x)
    (h : |(roundHalfEven x : ℚ) - x| = |(z : ℚ) - x|) : roundHalfEven x % 2 = 0 := by
  refine roundHalfEven_even_of_tie x hx (le_antisymm (roundHalfEven_near x hx) ?_)
  have happart : (1 : ℚ) ≤ |(z : ℚ) - roundHalfEven x| := by
    exact_mod_cast Int.one_le_abs (sub_ne_zero.mpr hz)
  have htriangle := abs_sub_le (z : ℚ) x (roundHalfEven x)
  rw [abs_sub_comm x] at htriangle
  linarith

/-- The power of two at which a positive rational is rounded: 24 significant bits, or the least quantum. -/
def roundQuantum (q : ℚ) : ℤ := max (-149) (floorLog2 q - 23)

/-- The significand that a positive rational is rounded to. -/
def roundSignificand (q : ℚ) : ℕ := roundHalfEven (q / (2 : ℚ) ^ roundQuantum q)

/-- The exponent and fraction bits of a rounded positive rational, as a number, before the test for overflow. -/
def roundBits (q : ℚ) : ℕ := (roundQuantum q + 149).toNat * 2 ^ 23 + roundSignificand q

/-- Rounding a nonzero rational writes the bits of its magnitude, or an infinity where they overflow. -/
theorem f32Round_eq (z : Bool) (q : ℚ) (hq : q ≠ 0) :
    f32Round z q = if 0x7F800000 ≤ roundBits |q| then f32Infinity (decide (q < 0))
      else f32OfParts (decide (q < 0)) (BitVec.ofNat 31 (roundBits |q|)) := by
  rw [f32Round, if_neg hq]
  exact apply_ite (f32OfParts (decide (q < 0))) _ _ _

/-- The quantum is never below the least one. -/
theorem roundQuantum_ge (q : ℚ) : -149 ≤ roundQuantum q := le_max_left _ _

/-- A positive rational has at most 24 bits above its quantum. -/
theorem lt_roundQuantum (q : ℚ) (hq : 0 < q) : q < (2 : ℚ) ^ (roundQuantum q + 24) := by
  have hle : floorLog2 q - 23 ≤ roundQuantum q := le_max_right _ _
  exact (floorLog2_spec q hq).2.trans_le (zpow_le_zpow_right₀ one_le_two (by omega))

/-- Above the least quantum a positive rational has 24 bits above its quantum. -/
theorem roundQuantum_le (q : ℚ) (hq : 0 < q) (hg : -149 < roundQuantum q) : (2 : ℚ) ^ (roundQuantum q + 23) ≤ q := by
  have hmax : roundQuantum q = max (-149) (floorLog2 q - 23) := rfl
  have heq : roundQuantum q + 23 = floorLog2 q := by omega
  rw [heq]
  exact (floorLog2_spec q hq).1

/-- The significand is within one half of the scaled rational. -/
theorem roundSignificand_near (q : ℚ) (hq : 0 < q) : |(roundSignificand q : ℚ) - q / (2 : ℚ) ^ roundQuantum q| ≤ 1 / 2 :=
  roundHalfEven_near _ (by positivity)

/-- The significand has at most 24 bits, and all 24 above the least quantum. -/
theorem roundSignificand_bounds (q : ℚ) (hq : 0 < q) :
    roundSignificand q ≤ 2 ^ 24 ∧ ((roundQuantum q + 149).toNat = 0 ∨ 2 ^ 23 ≤ roundSignificand q) :=
  roundHalfEven_significand q hq

/-- The significand carries into a 25th bit from half a unit above the greatest one of 24 bits on: that tie goes to the even one. -/
theorem roundSignificand_eq_top_iff (q : ℚ) (hq : 0 < q) :
    roundSignificand q = 2 ^ 24 ↔ (2 : ℚ) ^ 24 - 1 / 2 ≤ q / (2 : ℚ) ^ roundQuantum q := by
  have hnear := abs_le.mp (roundSignificand_near q hq)
  constructor
  · intro h
    rw [h] at hnear
    push_cast at hnear
    linarith
  · intro h
    refine le_antisymm (roundSignificand_bounds q hq).1 (Nat.succ_le_of_lt (lt_of_le_of_ne ?_ fun heq => ?_))
    · suffices (2 : ℚ) ^ 24 ≤ (roundSignificand q + 1 : ℕ) by
        have : 2 ^ 24 ≤ roundSignificand q + 1 := by exact_mod_cast this
        omega
      push_cast
      linarith
    · have htie : |(roundSignificand q : ℚ) - q / (2 : ℚ) ^ roundQuantum q| = 1 / 2 := by
        rw [← heq] at hnear ⊢
        push_cast at hnear ⊢
        rw [abs_of_nonpos (by linarith)]
        linarith
      have heven : roundSignificand q % 2 = 0 := roundHalfEven_even_of_tie _ (by positivity) htie
      omega

/-- The bits overflow above the greatest quantum, and at it when the significand carries. -/
theorem roundBits_overflow_iff_quantum (q : ℚ) (hq : 0 < q) :
    0x7F800000 ≤ roundBits q ↔ 104 < roundQuantum q ∨ roundQuantum q = 104 ∧ roundSignificand q = 2 ^ 24 := by
  have hbounds := roundSignificand_bounds q hq
  have hge := roundQuantum_ge q
  unfold roundBits
  omega

/-- The bits overflow exactly from the largest finite value and half a unit on. -/
theorem roundBits_overflow_iff (q : ℚ) (hq : 0 < q) :
    0x7F800000 ≤ roundBits q ↔ (2 ^ 25 - 1) * (2 : ℚ) ^ 103 ≤ q := by
  rw [roundBits_overflow_iff_quantum q hq, roundSignificand_eq_top_iff q hq]
  rcases lt_trichotomy (roundQuantum q) 104 with hg | hg | hg
  · have hlt : q < (2 ^ 25 - 1) * (2 : ℚ) ^ 103 :=
      calc q < (2 : ℚ) ^ (roundQuantum q + 24) := lt_roundQuantum q hq
        _ ≤ (2 : ℚ) ^ (127 : ℤ) := zpow_le_zpow_right₀ one_le_two (by omega)
        _ ≤ (2 ^ 25 - 1) * (2 : ℚ) ^ 103 := by norm_num
    simp [hg.ne, hg.not_gt, hlt]
  · have hpow : (2 : ℚ) ^ (104 : ℤ) = 2 ^ 103 * 2 := by norm_num
    rw [hg, hpow, le_div_iff₀ (by positivity)]
    simp only [lt_irrefl, true_and, false_or]
    constructor <;> intro h <;> linarith
  · have hle : (2 ^ 25 - 1) * (2 : ℚ) ^ 103 ≤ q :=
      calc (2 ^ 25 - 1) * (2 : ℚ) ^ 103 ≤ (2 : ℚ) ^ (128 : ℤ) := by norm_num
        _ ≤ (2 : ℚ) ^ (roundQuantum q + 23) := zpow_le_zpow_right₀ one_le_two (by omega)
        _ ≤ q := roundQuantum_le q hq (by omega)
    simp [hg, hle]

/-- A distance to a rational, in units of its quantum. -/
theorem abs_mul_roundQuantum_sub (q a : ℚ) :
    |a * (2 : ℚ) ^ roundQuantum q - q| = |a - q / (2 : ℚ) ^ roundQuantum q| * (2 : ℚ) ^ roundQuantum q := by
  have hpos : (0 : ℚ) < (2 : ℚ) ^ roundQuantum q := by positivity
  rw [← abs_of_pos hpos, ← abs_mul, abs_of_pos hpos, sub_mul, div_mul_cancel₀ _ hpos.ne']

/-- No multiple of the quantum is nearer than the one that rounding picks; one equally near leaves an even significand. -/
theorem roundSignificand_nearest_multiple (q : ℚ) (hq : 0 < q) (z : ℤ) :
    |(roundSignificand q : ℚ) * (2 : ℚ) ^ roundQuantum q - q| ≤ |(z : ℚ) * (2 : ℚ) ^ roundQuantum q - q| ∧
      (|(roundSignificand q : ℚ) * (2 : ℚ) ^ roundQuantum q - q| = |(z : ℚ) * (2 : ℚ) ^ roundQuantum q - q| →
        z ≠ roundSignificand q → roundSignificand q % 2 = 0) := by
  have hpos : (0 : ℚ) < (2 : ℚ) ^ roundQuantum q := by positivity
  have hx : 0 ≤ q / (2 : ℚ) ^ roundQuantum q := by positivity
  rw [abs_mul_roundQuantum_sub, abs_mul_roundQuantum_sub]
  exact ⟨mul_le_mul_of_nonneg_right (roundHalfEven_nearest _ hx z) hpos.le, fun htie hne =>
    roundHalfEven_even_of_equidistant _ hx z hne (mul_right_cancel₀ hpos.ne' htie)⟩

/-- A value of 24 bits at a power of two below the quantum is below the least value of 24 bits at the quantum. -/
theorem mul_zpow_lt_of_lt_roundQuantum (q : ℚ) (n h : ℤ) (hn : |n| < 2 ^ 24) (hh : h < roundQuantum q) :
    (n : ℚ) * (2 : ℚ) ^ h < (2 : ℚ) ^ (roundQuantum q + 23) := by
  have hn' : (n : ℚ) < 2 ^ 24 := by exact_mod_cast (abs_lt.mp hn).2
  calc (n : ℚ) * (2 : ℚ) ^ h < 2 ^ 24 * (2 : ℚ) ^ h := by gcongr
    _ = (2 : ℚ) ^ (h + 24) := by rw [zpow_add₀ two_ne_zero, mul_comm]; norm_num
    _ ≤ (2 : ℚ) ^ (roundQuantum q + 23) := zpow_le_zpow_right₀ one_le_two (by omega)

/-- No rational of binary32's form is nearer than the one that rounding picks; one equally near leaves an even significand. -/
theorem roundSignificand_nearest (q : ℚ) (hq : 0 < q) (n h : ℤ) (hn : |n| < 2 ^ 24) (hh : -149 ≤ h) :
    |(roundSignificand q : ℚ) * (2 : ℚ) ^ roundQuantum q - q| ≤ |(n : ℚ) * (2 : ℚ) ^ h - q| ∧
      (|(roundSignificand q : ℚ) * (2 : ℚ) ^ roundQuantum q - q| = |(n : ℚ) * (2 : ℚ) ^ h - q| →
        (n : ℚ) * (2 : ℚ) ^ h ≠ (roundSignificand q : ℚ) * (2 : ℚ) ^ roundQuantum q → roundSignificand q % 2 = 0) := by
  rcases le_or_gt (roundQuantum q) h with hg | hg
  · -- a multiple of the quantum
    obtain ⟨d, rfl⟩ : ∃ d : ℕ, h = d + roundQuantum q := ⟨(h - roundQuantum q).toNat, by omega⟩
    have hform : (n : ℚ) * (2 : ℚ) ^ ((d : ℤ) + roundQuantum q) = ((n * 2 ^ d : ℤ) : ℚ) * (2 : ℚ) ^ roundQuantum q := by
      rw [zpow_add₀ two_ne_zero, zpow_natCast]
      push_cast
      ring
    obtain ⟨hle, heven⟩ := roundSignificand_nearest_multiple q hq (n * 2 ^ d)
    rw [hform]
    exact ⟨hle, fun htie hne => heven htie (fun heq => hne (by rw [heq, Int.cast_natCast]))⟩
  · -- below the least multiple of 24 bits, which is itself no nearer than the one picked
    have hlow : (2 : ℚ) ^ (roundQuantum q + 23) ≤ q := roundQuantum_le q hq (by omega)
    have hsmall := mul_zpow_lt_of_lt_roundQuantum q n h hn hg
    have hpow : ((2 ^ 23 : ℤ) : ℚ) * (2 : ℚ) ^ roundQuantum q = (2 : ℚ) ^ (roundQuantum q + 23) := by
      rw [zpow_add₀ two_ne_zero, mul_comm]
      norm_num
    have hleast := (roundSignificand_nearest_multiple q hq (2 ^ 23)).1
    have hfar : |(roundSignificand q : ℚ) * (2 : ℚ) ^ roundQuantum q - q| < |(n : ℚ) * (2 : ℚ) ^ h - q| := by
      refine hleast.trans_lt ?_
      rw [hpow, abs_of_nonpos (by linarith), abs_of_neg (by linarith)]
      linarith
    exact ⟨hfar.le, fun htie => absurd htie hfar.ne⟩

/-- The distance to a rational is the distance to its magnitude after the sign is taken off both. -/
theorem abs_sub_eq_of_sign (q b : ℚ) : |b - q| = |(if q < 0 then -1 else 1) * b - (|q|)| := by
  split
  · next h =>
    rw [abs_of_neg h, abs_sub_comm]
    congr 1
    ring
  · next h => rw [abs_of_nonneg (not_lt.mp h), one_mul]

/-- A binary32 put together from an even number has a clear least significant bit. -/
theorem f32OfParts_getLsbD_zero (neg : Bool) (n : ℕ) (h : n % 2 = 0) : (f32OfParts neg (BitVec.ofNat 31 n)).getLsbD 0 = false := by
  rw [f32OfParts, BitVec.getLsbD_append, if_pos (by decide), BitVec.getLsbD_ofNat, Nat.testBit_zero]
  simp [h]

/-- Below the overflow bound a nonzero rational rounds to its picked significand at its quantum, with its sign. -/
theorem f32Round_finite (z : Bool) (q : ℚ) (hq : q ≠ 0) (hb : |q| < (2 ^ 25 - 1) * (2 : ℚ) ^ 103) :
    f32IsFinite (f32Round z q) = true ∧ f32Sign (f32Round z q) = decide (q < 0) ∧
      f32Value (f32Round z q) = (if q < 0 then -1 else 1) * ((roundSignificand |q| : ℚ) * (2 : ℚ) ^ roundQuantum |q|) ∧
      (roundSignificand |q| % 2 = 0 → (f32Round z q).getLsbD 0 = false) := by
  have hpos := abs_pos.mpr hq
  have hbits : ¬ 0x7F800000 ≤ roundBits |q| := by
    rw [roundBits_overflow_iff _ hpos]
    exact not_le.mpr hb
  obtain ⟨hm, hk⟩ := roundSignificand_bounds |q| hpos
  obtain ⟨hfin, hsign, hval⟩ := f32Value_bits (decide (q < 0)) _ _ hm hk (not_le.mp hbits)
  have hge := roundQuantum_ge |q|
  rw [f32Round_eq z q hq, if_neg hbits]
  refine ⟨hfin, hsign, ?_, fun heven => f32OfParts_getLsbD_zero _ _ (by unfold roundBits; omega)⟩
  have hquantum : (((roundQuantum |q| + 149).toNat : ℤ) - 149) = roundQuantum |q| := by omega
  rw [hquantum, mul_assoc] at hval
  simpa only [decide_eq_true_eq, roundBits] using hval

/-- Below the overflow bound no rational of binary32's form is nearer than the rounded one, and a tie goes to the even one. -/
theorem f32Round_nearest (z : Bool) (q : ℚ) (hb : |q| < (2 ^ 25 - 1) * (2 : ℚ) ^ 103) (n h : ℤ) (hn : |n| < 2 ^ 24)
    (hh : -149 ≤ h) :
    |f32Value (f32Round z q) - q| ≤ |(n : ℚ) * (2 : ℚ) ^ h - q| ∧
      (|f32Value (f32Round z q) - q| = |(n : ℚ) * (2 : ℚ) ^ h - q| → (n : ℚ) * (2 : ℚ) ^ h ≠ f32Value (f32Round z q) →
        (f32Round z q).getLsbD 0 = false) := by
  rcases eq_or_ne q 0 with rfl | hq
  · have hzero : f32Value (f32Round z 0) = 0 ∧ (f32Round z 0).getLsbD 0 = false := by cases z <;> decide +kernel
    simp only [hzero, sub_self, abs_zero]
    exact ⟨abs_nonneg _, fun _ _ => trivial⟩
  · obtain ⟨-, -, hval, heven⟩ := f32Round_finite z q hq hb
    have hnearest := roundSignificand_nearest |q| (abs_pos.mpr hq)
    rw [hval, abs_sub_eq_of_sign, abs_sub_eq_of_sign q ((n : ℚ) * (2 : ℚ) ^ h)]
    split
    · obtain ⟨hle, htie⟩ := hnearest (-n) h (by rwa [abs_neg]) hh
      push_cast at hle htie
      simp only [neg_mul, one_mul, neg_neg] at hle htie ⊢
      exact ⟨hle, fun heq hne => heven (htie heq (fun hc => hne (by rw [← hc, neg_neg])))⟩
    · obtain ⟨hle, htie⟩ := hnearest n h hn hh
      simp only [one_mul]
      exact ⟨hle, fun heq hne => heven (htie heq hne)⟩

/-- Rounding is the rounding of R9: to nearest with ties to even, with the sign of the rational, to infinity past the bound. -/
theorem f32Round_roundedTo (z : Bool) (q : ℚ) : RoundedTo (f32Round z q) q := by
  unfold RoundedTo
  split
  · next hb =>
    refine ⟨?_, fun x _ => ?_, fun hq => (f32Round_finite z q hq hb).2.1⟩
    · rcases eq_or_ne q 0 with rfl | hq
      · cases z <;> decide +kernel
      · exact (f32Round_finite z q hq hb).1
    · obtain ⟨n, h, hn, hh, hx⟩ := f32Value_form x
      rw [hx]
      exact f32Round_nearest z q hb n h hn hh
  · next hb =>
    have hpos : 0 < |q| := lt_of_lt_of_le (by norm_num) (not_lt.mp hb)
    rw [f32Round_eq z q (abs_pos.mp hpos), if_pos ((roundBits_overflow_iff _ hpos).mpr (not_lt.mp hb))]

/-- A rational of binary32's form rounds to itself. -/
theorem f32Round_exact (z : Bool) {q : ℚ} (n h : ℤ) (hn : |n| < 2 ^ 24) (hh : -149 ≤ h) (hq : q = (n : ℚ) * (2 : ℚ) ^ h)
    (hb : |q| < (2 ^ 25 - 1) * (2 : ℚ) ^ 103) : f32Value (f32Round z q) = q := by
  have hle := (f32Round_nearest z q hb n h hn hh).1
  rw [← hq, sub_self, abs_zero] at hle
  exact sub_eq_zero.mp (abs_nonpos_iff.mp hle)

/-- A finite value is below the overflow bound. -/
theorem abs_f32Value_lt (x : F32) (hx : f32IsFinite x = true) : |f32Value x| < (2 ^ 25 - 1) * (2 : ℚ) ^ 103 := by
  have hexp : f32Exponent x < 255 := by
    have hlt : f32Exponent x < 256 := (x.extractLsb' 23 8).isLt
    have hne : f32Exponent x ≠ 255 := by simpa [f32IsFinite] using hx
    omega
  have hsig : (f32Significand x : ℚ) ≤ 2 ^ 24 - 1 := by
    have hfrac : f32Fraction x < 2 ^ 23 := (x.extractLsb' 0 23).isLt
    have : f32Significand x + 1 ≤ 2 ^ 24 := by
      unfold f32Significand
      split <;> omega
    rw [le_sub_iff_add_le]
    exact_mod_cast this
  have hquantum : (2 : ℚ) ^ f32Quantum x ≤ 2 ^ (104 : ℤ) :=
    zpow_le_zpow_right₀ one_le_two (by unfold f32Quantum; omega)
  calc |f32Value x| = (f32Significand x : ℚ) * (2 : ℚ) ^ f32Quantum x := by
        rw [f32Value, abs_mul, abs_mul, abs_of_nonneg (by positivity : (0 : ℚ) ≤ f32Significand x),
          abs_of_pos (by positivity : (0 : ℚ) < (2 : ℚ) ^ f32Quantum x)]
        split <;> simp
    _ ≤ (2 ^ 24 - 1) * (2 : ℚ) ^ (104 : ℤ) := by gcongr
    _ < (2 ^ 25 - 1) * (2 : ℚ) ^ 103 := by norm_num

/-- A rational that a binary32 equals rounds to itself. -/
theorem f32Round_f32Value (z : Bool) (x : F32) (hx : f32IsFinite x = true) : f32Value (f32Round z (f32Value x)) = f32Value x := by
  obtain ⟨n, h, hn, hh, hval⟩ := f32Value_form x
  exact f32Round_exact z n h hn hh hval (abs_f32Value_lt x hx)

/-- A value with its sign bit set is not positive. -/
theorem f32Value_nonpos_of_sign (x : F32) (h : f32Sign x = true) : f32Value x ≤ 0 := by
  rw [f32Value, if_pos h, mul_assoc, neg_one_mul, neg_nonpos]
  positivity

/-- The quiet NaN of any sign and payload is a quiet NaN. -/
theorem f32QuietNaN_isQuietNaN (k : BitVec 23) : IsQuietNaN (f32QuietNaN k) := by
  constructor
  · have hexp : (f32QuietNaN k).extractLsb' 23 8 = BitVec.allOnes 8 := by
      apply BitVec.eq_of_getLsbD_eq
      intro i hi
      rw [BitVec.getLsbD_extractLsb', f32QuietNaN, BitVec.getLsbD_append, if_neg (by omega), BitVec.getLsbD_append,
        if_neg (by omega), BitVec.getLsbD_append, if_pos (by omega), show 23 + i - 22 - 1 = i by omega]
      simp [hi]
    rw [f32Exponent, hexp]
    rfl
  · rw [f32QuietNaN, BitVec.getLsbD_append, if_neg (by decide), BitVec.getLsbD_append, if_pos (by decide)]
    rfl

/-- An addition with a NaN operand gives a quiet NaN (00_scope.md R9; 93 I-11). -/
theorem f32Add_isQuietNaN_of_isNaN (a b : F32) (h : f32IsNaN b = true) : IsQuietNaN (f32Add a b) := by
  rw [f32Add, h, Bool.or_true, Bool.true_or, if_pos rfl]
  exact f32QuietNaN_isQuietNaN _

/-- A finite value plus an infinity is that infinity. -/
theorem f32Add_inf (a b : F32) (ha : f32IsFinite a = true) (hb : f32IsInf b = true) : f32Add a b = b := by
  obtain ⟨hnan, hinf⟩ := f32_finite_cases a ha
  have hb' : f32IsNaN b = false := by
    simp only [f32IsInf, Bool.and_eq_true, beq_iff_eq] at hb
    simp [f32IsNaN, hb]
  simp [f32Add, f32Sum, hnan, hinf, hb, hb']

/-- On finite operands an addition is the rounding of the exact sum. -/
theorem f32Add_roundedTo (a b : F32) (ha : f32IsFinite a = true) (hb : f32IsFinite b = true) :
    RoundedTo (f32Add a b) (f32Value a + f32Value b) := by
  rw [f32Add_finite a b ha hb]
  exact f32Round_roundedTo _ _

/-- An exact zero sum is plus zero where one operand is not minus zero: a nonzero operand then meets one of the other sign. -/
theorem f32Add_eq_zero (a b : F32) (ha : f32IsFinite a = true) (hb : f32IsFinite b = true)
    (hneg : f32Sign a = true → f32Value a < 0) (h : f32Value a + f32Value b = 0) : f32Add a b = 0x00000000#32 := by
  have hsign : (f32Sign a && f32Sign b) = false := by
    by_contra hboth
    simp only [Bool.not_eq_false, Bool.and_eq_true] at hboth
    linarith [hneg hboth.1, f32Value_nonpos_of_sign b hboth.2]
  rw [f32Add_finite a b ha hb, h, hsign]
  decide

/-- A NaN, a zero and a value with the sign bit set are not IEEE-equal to a positive value. -/
theorem f32Eq_eq_false (k x : F32) (hsign : f32Sign x = false) (hzero : f32IsZero x = false)
    (hk : f32IsNaN k = true ∨ f32IsZero k = true ∨ f32Sign k = true) : f32Eq k x = false := by
  have hne (hnan : f32IsNaN k = false) : k ≠ x := by
    rintro rfl
    simp [hnan, hzero, hsign] at hk
  cases hnan : f32IsNaN k with
  | true => simp [f32Eq, hnan]
  | false => simp [f32Eq, hnan, hzero, hne hnan]

/-- A value that is no NaN equals itself. -/
theorem f32Eq_self (x : F32) (h : f32IsNaN x = false) : f32Eq x x = true := by
  simp [f32Eq, h]

end Sys2Proof.Machine
end

section
/-! The temperatures as binary32 (41_frame_decoder.md R107): exact, and never minus zero. -/

namespace Sys2Proof.Machine

/-- A temperature of at most 24 bits at a resolution no finer than the least quantum converts to binary32 exactly. -/
theorem f32Exact_of_form {q : ℚ} (n h : ℤ) (hn : |n| < 2 ^ 24) (hh : -149 ≤ h) (hq : q = (n : ℚ) * (2 : ℚ) ^ h)
    (hb : |q| < (2 ^ 25 - 1) * (2 : ℚ) ^ 103) :
    f32IsFinite (f32Exact q) = true ∧ f32Value (f32Exact q) = q ∧ (f32Sign (f32Exact q) = true → q < 0) := by
  refine ⟨?_, f32Round_exact false n h hn hh hq hb, ?_⟩
  · have := f32Round_roundedTo false q
    rw [RoundedTo, if_pos hb] at this
    exact this.1
  · rcases eq_or_ne q 0 with rfl | hne
    · intro hs
      exact absurd hs (by decide)
    · intro hs
      rw [f32Exact, (f32Round_finite false q hne hb).2.1] at hs
      exact of_decide_eq_true hs

/-- An internal temperature is a count of sixteenths (41_frame_decoder.md R104). -/
theorem intTemp_form (k : BitVec 12) : ∃ n : ℤ, |n| < 2 ^ 24 ∧ intTemp k = (n : ℚ) * (2 : ℚ) ^ (-4 : ℤ) := by
  have hlt : k.toNat % 2 ^ 11 < 2 ^ 11 := Nat.mod_lt _ (by norm_num)
  refine ⟨(if k.getLsbD 11 then -2048 else 0) + ((k.toNat % 2 ^ 11 : ℕ) : ℤ), ?_, ?_⟩
  · rw [abs_lt]
    split <;> omega
  · rw [intTemp_eq]
    generalize k.toNat % 2 ^ 11 = m
    split <;> push_cast <;> ring

/-- A probe temperature is a count of quarters, of at most 2^13 (R105). -/
theorem probeTemp_form (k : BitVec 14) : ∃ n : ℤ, |n| ≤ 2 ^ 13 ∧ probeTemp k = (n : ℚ) * (2 : ℚ) ^ (-2 : ℤ) := by
  have hlt : k.toNat % 2 ^ 13 < 2 ^ 13 := Nat.mod_lt _ (by norm_num)
  refine ⟨(if k.getLsbD 13 then -8192 else 0) + ((k.toNat % 2 ^ 13 : ℕ) : ℤ), ?_, ?_⟩
  · rw [abs_le]
    split <;> omega
  · rw [probeTemp_eq]
    generalize k.toNat % 2 ^ 13 = m
    split <;> push_cast <;> ring

/-- A probe temperature and an offset of quarters below 2^21 sum to a count of quarters of 24 bits (44_reader_commands.md R167). -/
theorem probeTemp_add_quarters_form (k : BitVec 14) (n : ℤ) (h : |(n : ℚ) / 4| < 2 ^ 21) :
    ∃ m : ℤ, |m| < 2 ^ 24 ∧ probeTemp k + (n : ℚ) / 4 = (m : ℚ) * (2 : ℚ) ^ (-2 : ℤ) := by
  obtain ⟨t, ht, htemp⟩ := probeTemp_form k
  have hn : |n| < 2 ^ 23 := by
    obtain ⟨hlo, hhi⟩ := abs_lt.mp h
    have : |(n : ℚ)| < 2 ^ 23 := abs_lt.mpr ⟨by linarith, by linarith⟩
    exact_mod_cast this
  refine ⟨t + n, (abs_add_le t n).trans_lt (by omega), ?_⟩
  rw [htemp]
  push_cast
  ring

/-- The internal temperature converts exactly, and never to minus zero (R107). -/
theorem f32Exact_intTemp (k : BitVec 12) :
    f32IsFinite (f32Exact (intTemp k)) = true ∧ f32Value (f32Exact (intTemp k)) = intTemp k ∧
      (f32Sign (f32Exact (intTemp k)) = true → intTemp k < 0) := by
  obtain ⟨n, hn, hform⟩ := intTemp_form k
  obtain ⟨hlo, hhi⟩ := intTemp_bounds k
  exact f32Exact_of_form n (-4) hn (by norm_num) hform (abs_lt.mpr ⟨by linarith, by linarith⟩)

/-- The probe temperature converts exactly, and never to minus zero (R107). -/
theorem f32Exact_probeTemp (k : BitVec 14) :
    f32IsFinite (f32Exact (probeTemp k)) = true ∧ f32Value (f32Exact (probeTemp k)) = probeTemp k ∧
      (f32Sign (f32Exact (probeTemp k)) = true → probeTemp k < 0) := by
  obtain ⟨n, hn, hform⟩ := probeTemp_form k
  obtain ⟨hlo, hhi⟩ := probeTemp_bounds k
  exact f32Exact_of_form n (-2) (by omega) (by norm_num) hform (abs_lt.mpr ⟨by linarith, by linarith⟩)

end Sys2Proof.Machine
end

section
/-! The queries (44_reader_commands.md R166 to R172, R179). -/

namespace Sys2Proof.Machine

/-! What GETPT and GETIT return, path by path. -/

/-- Without data GETPT returns `NO_TEMPERATURE` (R166). -/
theorem probeReading_of_noData (s : State) (h : s.hasData = false) : probeReading s = Config.noTemperature := by
  simp [probeReading, h]

/-- With data and the native coefficient GETPT takes the fast path (R166). -/
theorem probeReading_of_native (s : State) (hd : s.hasData = true) (hn : f32Eq s.seebeck s.params.nativeSeebeck = true) :
    probeReading s = fastPath s := by
  simp [probeReading, hd, hn]

/-- With data and another coefficient GETPT takes the slow path (R166). -/
theorem probeReading_of_not_native (s : State) (hd : s.hasData = true)
    (hn : f32Eq s.seebeck s.params.nativeSeebeck = false) : probeReading s = slowPath s := by
  simp [probeReading, hd, hn]

/-- Without data GETIT returns `NO_TEMPERATURE` (R170). -/
theorem internalReading_of_noData (s : State) (h : s.hasData = false) : internalReading s = Config.noTemperature := by
  simp [internalReading, h]

/-- With data GETIT returns the internal temperature (R170). -/
theorem internalReading_of_hasData (s : State) (h : s.hasData = true) : internalReading s = f32Exact (intTemp s.intCode) := by
  simp [internalReading, h]

/-- GETPT appends the probe reading to the responses and does nothing else. -/
theorem exec_getpt (s : State) {w : Word} (h : probeReading s = w) :
    exec .getpt s = .next { s with responses := s.responses ++ [w] } := by
  subst h
  rfl

/-- GETIT appends the internal reading to the responses and does nothing else. -/
theorem exec_getit (s : State) {w : Word} (h : internalReading s = w) :
    exec .getit s = .next { s with responses := s.responses ++ [w] } := by
  subst h
  rfl

/-- GETST appends the status report to the responses and does nothing else. -/
theorem exec_getst (s : State) {w : Word} (h : statusReport s.hasData s.status = w) :
    exec .getst s = .next { s with responses := s.responses ++ [w] } := by
  subst h
  rfl

/-- GETTS appends the timestamp to the responses and does nothing else. -/
theorem exec_getts (s : State) {w : Word} (h : s.lastReadTs = w) :
    exec .getts s = .next { s with responses := s.responses ++ [w] } := by
  subst h
  rfl

/-- The word GETST returns has nine bits (R171). -/
theorem statusReport_toNat_lt (hasData : Bool) (status : Byte) : (statusReport hasData status).toNat < 2 ^ 9 := by
  rw [statusReport, BitVec.toNat_setWidth]
  exact (Nat.mod_le _ _).trans_lt (BitVec.isLt _)

/-- A query appends one word, which the registers it reads determine, and does nothing else (R179). -/
theorem exec_query (i : Instr) (s : State) (h : i = .getpt ∨ i = .getit ∨ i = .getst ∨ i = .getts) :
    exec i s = .next (s.respond (responseWord i s s)) := by
  obtain rfl | rfl | rfl | rfl := h <;> rfl

/-- The word of a query does not depend on the responses given before it. -/
theorem responseWord_query_respond (i : Instr) (s : State) (w : Word)
    (h : i = .getpt ∨ i = .getit ∨ i = .getst ∨ i = .getts) :
    responseWord i (s.respond w) (s.respond w) = responseWord i s s := by
  obtain rfl | rfl | rfl | rfl := h <;> rfl

/-- Every command but READ draws nothing from the environment (R179). -/
theorem exec_draws_nothing (i : Instr) (s t : State) (hi : i ≠ .read) (h : exec i s = .next t) :
    t.draws = s.draws ∧ t.pinAnswers = s.pinAnswers ∧ t.busAnswers = s.busAnswers ∧ t.nowAnswers = s.nowAnswers := by
  cases i with
  | initA cs bus =>
    obtain ⟨-, rfl⟩ := execInitA_next cs bus s t h
    exact ⟨rfl, rfl, rfl, rfl⟩
  | initB cs clk data =>
    obtain ⟨-, -, rfl⟩ := execInitB_next cs clk data s t h
    exact ⟨rfl, rfl, rfl, rfl⟩
  | read => exact absurd rfl hi
  | getpt | getit | getst | getts | setofs _ | setsbk _ | setfrq _ | setdly _ =>
    injection h with h
    subst h
    exact ⟨rfl, rfl, rfl, rfl⟩

/-- Settles O43: a query appends `responseWord`, which the response just given does not change. -/
theorem queriesHaveNoSideEffects : Obligations.QueriesHaveNoSideEffects := by
  refine ⟨fun i s h => ⟨responseWord i s s, exec_query i s h, ?_⟩, exec_draws_nothing⟩
  have hagain := exec_query i (s.respond (responseWord i s s)) h
  rw [responseWord_query_respond i s _ h] at hagain
  simpa [State.respond] using hagain

/-- Settles O36: the word by `decode_eq_ok_iff`, the refusal by the table's row, the response by the three paths. -/
theorem getptReturnsTheProbeTemperature : Obligations.GetptReturnsTheProbeTemperature := by
  refine ⟨fun c => decode_eq_ok_iff c .getpt, othersReserved_of_mem ⟨.getpt, _, _⟩ (by decide), fun s hd => ?_,
    fun s hd hn => ?_, fun s hd hn => ?_⟩
  · exact exec_getpt s (probeReading_of_noData s hd)
  · exact exec_getpt s (probeReading_of_native s hd hn)
  · exact exec_getpt s (probeReading_of_not_native s hd hn)

/-- Settles O37: the probe temperature converts exactly, so the fast path is one rounding of the exact sum. -/
theorem fastPathIsTheRoundedSum : Obligations.FastPathIsTheRoundedSum := by
  intro s hd hn
  obtain ⟨hfin, hval, hneg⟩ := f32Exact_probeTemp s.probeCode
  rw [probeReading_of_native s hd hn, fastPath]
  have hsum (hx : f32IsFinite s.calOffset = true) := f32Add_finite _ _ hfin hx
  have hzero (hx : f32IsFinite s.calOffset = true) (h0 : probeTemp s.probeCode + f32Value s.calOffset = 0) :=
    f32Add_eq_zero _ _ hfin hx (by rwa [hval]) (by rwa [hval])
  refine ⟨fun hx => ?_, ?_, ?_, ?_, hzero, f32Add_inf _ _ hfin, f32Add_isQuietNaN_of_isNaN _ _⟩
  · have hround := f32Add_roundedTo _ _ hfin hx
    rwa [hval] at hround
  · rintro hx ⟨x, hxfin, hxval⟩
    rw [hsum hx, hval, ← hxval]
    exact f32Round_f32Value _ x hxfin
  · intro n hx hoff hsmall
    obtain ⟨m, hm, hform⟩ := probeTemp_add_quarters_form s.probeCode n hsmall
    obtain ⟨hlo, hhi⟩ := abs_lt.mp hsmall
    obtain ⟨htlo, hthi⟩ := probeTemp_bounds s.probeCode
    rw [hsum hx, hval, hoff]
    exact f32Round_exact _ m (-2) hm (by norm_num) hform (abs_lt.mpr ⟨by linarith, by linarith⟩)
  · intro hp ho
    have hvals : probeTemp 0#14 = 0 ∧ f32Value 0x80000000#32 = 0 := by decide +kernel
    exact hzero (by rw [ho]; decide) (by rw [hp, ho, hvals.1, hvals.2, add_zero])

/-- Settles O40: the internal temperature converts exactly; its two corners are computed. -/
theorem getitReturnsTheInternalTemperature : Obligations.GetitReturnsTheInternalTemperature := by
  refine ⟨fun c => decode_eq_ok_iff c .getit, othersReserved_of_mem ⟨.getit, _, _⟩ (by decide),
    fun s hd => exec_getit s (internalReading_of_noData s hd), fun s hd => ?_⟩
  refine ⟨_, exec_getit s (internalReading_of_hasData s hd), rfl, (f32Exact_intTemp s.intCode).2.1, ?_, ?_⟩
  · intro hk
    rw [hk]
    decide +kernel
  · intro hk
    rw [hk]
    decide +kernel

/-- Settles O41: the bits of `statusReport`, and the three words of the rule. -/
theorem getstReturnsStatusAndHasData : Obligations.GetstReturnsStatusAndHasData := by
  refine ⟨fun c => decode_eq_ok_iff c .getst, othersReserved_of_mem ⟨.getst, _, _⟩ (by decide), fun s => ?_, ?_, ?_, ?_⟩
  · exact ⟨_, exec_getst s rfl, statusReport_getLsbD s.hasData s.status 8, statusReport_status .., statusReport_toNat_lt ..⟩
  all_goals
    intro s hd hst
    refine exec_getst s ?_
    rw [hd, hst]
    decide

end Sys2Proof.Machine
end

section
/-! READ (44_reader_commands.md R163 to R165) and what it takes from the registers that the setters write. -/

namespace Sys2Proof.Machine

/-- READ of a configured block answers the decoded frame of its one transfer, and responds the status it leaves (R163, R165). -/
theorem exec_read_of_configured (s : State) (h : s.lifecycle = .configured) :
    exec .read s = .next ((readFrame s).respond (statusWord (readFrame s).status)) := by
  simp [exec, execRead, h]

/-- On the sentinel, DECODE leaves the transfer's state with `STATUS_NOCOMM` (41_frame_decoder.md R101). -/
theorem readFrame_of_sentinel (s : State) (h : transferFrame s = Config.sentinel) :
    readFrame s = { afterTransfer s with status := Config.statusNoComm } := by
  rw [readFrame_eq, decodeFrame_eq, if_pos h]

/-- Settles O33: the sentinel writes `STATUS` only, and the transfer writes no cached field and no lifecycle. -/
theorem sentinelReadIsNotFatal : Obligations.SentinelReadIsNotFatal := by
  intro s hl hw
  refine ⟨_, exec_read_of_configured s hl, ?_⟩
  rw [readFrame_of_sentinel s hw]
  exact ⟨rfl, rfl, rfl, rfl, rfl, rfl, rfl, hl, _, exec_read_of_configured _ hl⟩

/-- Settles O42: GETTS returns the register; R39's second invariant makes it 0 without data; the sentinel leaves it. -/
theorem gettsReturnsTheTimestamp : Obligations.GettsReturnsTheTimestamp := by
  refine ⟨fun c => decode_eq_ok_iff c .getts, othersReserved_of_mem ⟨.getts, _, _⟩ (by decide), fun s => exec_getts s rfl,
    fun s hinv hd => exec_getts s (hinv.no_data_cache hd).2.2, fun s t hw ht => exec_getts t ?_⟩
  obtain ⟨-, rfl⟩ := execRead_next s t ht
  rw [readFrame_of_sentinel s hw]
  rfl

/-! A READ does not look at the offset; the other transport's registers bear on no transfer. -/

/-- The offset bears on no decode (R169). -/
theorem decodeFrame_with_calOffset (w : Frame) (s : State) (o : F32) :
    decodeFrame w { s with calOffset := o } = { decodeFrame w s with calOffset := o } := by
  rw [decodeFrame_eq, decodeFrame_eq]
  split <;> rfl

/-- The offset bears on neither the transfer nor the decode (R169). -/
theorem readFrame_with_calOffset (s : State) (o : F32) :
    readFrame { s with calOffset := o } = { readFrame s with calOffset := o } := by
  have hframe : transferFrame { s with calOffset := o } = transferFrame s := rfl
  have hafter : afterTransfer { s with calOffset := o } = { afterTransfer s with calOffset := o } := rfl
  rw [readFrame_eq, readFrame_eq, hframe, hafter, decodeFrame_with_calOffset]

/-- The transfer of an accelerated block is XFER.A (R163). -/
theorem transfer_of_accel (s : State) (h : s.transport = .accel) : transfer s = xferA s := by
  rw [transfer, h]

/-- The transfer of a bit-clocked block is XFER.B (R163). -/
theorem transfer_of_bitclk (s : State) (h : s.transport = .bitclk) : transfer s = xferB s := by
  rw [transfer, h]

/-- Under `BITCLK` the clock rate of the bus bears on no transfer (R175). -/
theorem transfer_with_spiFreqHz (s : State) (hz : Word) (h : s.transport = .bitclk) :
    transfer { s with spiFreqHz := hz } = ((transfer s).1, { (transfer s).2 with spiFreqHz := hz }) := by
  rw [transfer_of_bitclk s h, transfer_of_bitclk { s with spiFreqHz := hz } h, xferB_eq, xferB_eq]
  rfl

/-- Under `ACCEL` the per-bit delay bears on no transfer (R176). -/
theorem transfer_with_bitDelayUs (s : State) (us : BitVec 16) (h : s.transport = .accel) :
    transfer { s with bitDelayUs := us } = ((transfer s).1, { (transfer s).2 with bitDelayUs := us }) := by
  rw [transfer_of_accel s h, transfer_of_accel { s with bitDelayUs := us } h, xferA_eq, xferA_eq]
  rfl

/-- A READ appends the events of its one transfer: DECODE and the response append none (R164). -/
theorem readFrame_trace (s : State) : (readFrame s).trace = s.trace ++ transferEvents s := by
  rw [readFrame_eq, decodeFrame_eq]
  split <;> rfl

/-- The fast path adds the offset last (R167). -/
theorem fastPath_with_calOffset (s : State) : ∃ x : F32, ∀ o : F32, fastPath { s with calOffset := o } = f32Add x o :=
  ⟨f32Exact (probeTemp s.probeCode), fun _ => rfl⟩

/-- The slow path adds the offset last (R168). -/
theorem slowPath_with_calOffset (s : State) : ∃ x : F32, ∀ o : F32, slowPath { s with calOffset := o } = f32Add x o :=
  ⟨f32Add (f32Div (f32Mul s.params.nativeSeebeck (f32Sub (f32Exact (probeTemp s.probeCode)) (f32Exact (intTemp s.intCode))))
    s.seebeck) (f32Exact (intTemp s.intCode)), fun _ => rfl⟩

/-- Settles O39: with data, each path is one addition of the offset to a value that does not look at it. -/
theorem offsetIsAddedLastAndOnlyToTheProbe : Obligations.OffsetIsAddedLastAndOnlyToTheProbe := by
  refine fun s hd => ⟨readFrame_with_calOffset s, ?_, fun o k => ⟨internalReading s, rfl, rfl⟩⟩
  cases hn : f32Eq s.seebeck s.params.nativeSeebeck with
  | true =>
    obtain ⟨x, hx⟩ := fastPath_with_calOffset s
    exact ⟨x, fun o => (probeReading_of_native { s with calOffset := o } hd hn).trans (hx o)⟩
  | false =>
    obtain ⟨x, hx⟩ := slowPath_with_calOffset s
    exact ⟨x, fun o => (probeReading_of_not_native { s with calOffset := o } hd hn).trans (hx o)⟩

end Sys2Proof.Machine
end

section
/-! The setters (44_reader_commands.md R173 to R178). -/

namespace Sys2Proof.Machine

/-- Settles O45: SETOFS writes its register and responds 0, whatever the operand and the state. -/
theorem setofsStoresTheOffset : Obligations.SetofsStoresTheOffset :=
  ⟨fun c o => decode_eq_ok_iff c (.setofs o), othersReserved_of_mem ⟨.setofs, _, _⟩ (by decide), fun _ _ => rfl⟩

/-- Settles O46: SETSBK writes its register, and `f32Eq` with a positive native coefficient tells the paths apart. -/
theorem setsbkStoresTheCoefficient : Obligations.SetsbkStoresTheCoefficient :=
  ⟨fun c k => decode_eq_ok_iff c (.setsbk k), othersReserved_of_mem ⟨.setsbk, _, _⟩ (by decide), fun _ _ => rfl,
    fun k s hd hsign hzero hk => probeReading_of_not_native { s with seebeck := k } hd (f32Eq_eq_false k _ hsign hzero hk),
    fun s hd hnan => probeReading_of_native { s with seebeck := s.params.nativeSeebeck } hd (f32Eq_self _ hnan)⟩

/-- Settles O47: a READ after SETFRQ appends the events of an accelerated transfer, the first of which carries the stored rate. -/
theorem setfrqStoresTheFrequency : Obligations.SetfrqStoresTheFrequency := by
  refine ⟨fun c hz => decode_eq_ok_iff c (.setfrq hz), othersReserved_of_mem ⟨.setfrq, _, _⟩ (by decide), fun _ _ => rfl,
    fun hz s hl ht => ?_, fun hz s => transfer_with_spiFreqHz s hz⟩
  refine ⟨_, _, rfl, exec_read_of_configured _ hl, ?_⟩
  rw [respond_trace, readFrame_trace, respond_trace, List.drop_left]
  simp [transferEvents, ht, accelEvents]

/-- The delay events of a half-delay ask for its microseconds (43_bitclocked_transport.md R143). -/
theorem totalDelay_delayEvents (n : BitVec 16) : totalDelay (delayEvents n) = n.toNat := by
  unfold delayEvents
  split
  · next h => simp [h, totalDelay]
  · simp [totalDelay, delayOf]

/-- Delays of lists of events add up. -/
theorem totalDelay_append (l l' : List Event) : totalDelay (l ++ l') = totalDelay l + totalDelay l' := by
  simp [totalDelay]

/-- The two half-delays of a bit group ask for the whole per-bit delay (R143). -/
theorem totalDelay_bitGroup (clk data : PinId) (d : BitVec 16) (b : BitVec 1) : totalDelay (bitGroup clk data d b) = d.toNat := by
  have hsplit : bitGroup clk data d b = [.pinWrite clk .low] ++ delayEvents (delayLow d) ++
      [.pinRead data b, .pinWrite clk .high] ++ delayEvents (delayHigh d) := by simp [bitGroup]
  have hpins : totalDelay [.pinWrite clk .low] = 0 ∧ totalDelay [.pinRead data b, .pinWrite clk .high] = 0 := ⟨rfl, rfl⟩
  rw [hsplit, totalDelay_append, totalDelay_append, totalDelay_append, totalDelay_delayEvents, totalDelay_delayEvents,
    delayLow_toNat, delayHigh_toNat, hpins.1, hpins.2]
  omega

/-- The bit groups of `n` samples ask for `n` per-bit delays. -/
theorem totalDelay_bitGroups (clk data : PinId) (d : BitVec 16) (f : ℕ → BitVec 1) (l : List ℕ) :
    totalDelay (l.flatMap fun k => bitGroup clk data d (f k)) = l.length * d.toNat := by
  induction l with
  | nil => simp [totalDelay]
  | cons k l ih =>
    rw [List.flatMap_cons, totalDelay_append, totalDelay_bitGroup, ih, List.length_cons]
    ring

/-- The delays of one XFER.B sum to 32 times the per-bit delay (R147). -/
theorem totalDelay_clockedEvents (s : State) : totalDelay (clockedEvents s) = 32 * s.bitDelayUs.toNat := by
  have hends : totalDelay [.pinWrite s.pinCs .low] = 0 ∧ totalDelay [.pinWrite s.pinCs .high] = 0 := ⟨rfl, rfl⟩
  rw [clockedEvents, ← List.singleton_append, totalDelay_append, totalDelay_append, totalDelay_bitGroups,
    List.length_range, hends.1, hends.2]
  omega

/-- With a zero per-bit delay a transfer has no delay event (R176). -/
theorem delayUs_not_mem_clockedEvents (s : State) (h : s.bitDelayUs = 0#16) (n : BitVec 16) :
    .delayUs n ∉ clockedEvents s := by
  have hhalves : delayEvents (delayLow 0#16) = [] ∧ delayEvents (delayHigh 0#16) = [] := by decide
  simp [clockedEvents, bitGroup, h, hhalves]

/-- Settles O48: a READ after SETDLY appends the events of a bit-clocked transfer with the stored delay, which ask for 32 of it. -/
theorem setdlyStoresTheDelay : Obligations.SetdlyStoresTheDelay := by
  refine ⟨fun c us => decode_eq_ok_iff c (.setdly us), othersReserved_of_mem ⟨.setdly, _, _⟩ (by decide), fun _ _ => rfl,
    fun us s hl ht => ?_, fun s n => ?_, fun us hodd => ?_, fun us s => transfer_with_bitDelayUs s us⟩
  · refine ⟨_, _, clockedEvents { s with bitDelayUs := us }, rfl, exec_read_of_configured _ hl, ?_,
      totalDelay_clockedEvents _, rfl⟩
    rw [respond_trace, readFrame_trace]
    simp only [transferEvents, respond_transport, ht]
    rfl
  · rw [xferB_eq]
    exact delayUs_not_mem_clockedEvents _ rfl n
  · rw [delayLow_toNat, delayHigh_toNat]
    omega

/-- Settles O49: each setter writes its one register; of the four, GETPT reads only those that SETOFS and SETSBK write. -/
theorem settersKeepTheReading : Obligations.SettersKeepTheReading := by
  intro i s h
  cases i with
  | setofs | setsbk | setfrq | setdly => exact ⟨_, rfl, rfl, rfl, rfl, rfl, rfl, rfl, rfl, rfl⟩
  | initA | initB | read | getpt | getit | getst | getts => simp [Instr.opcode] at h

end Sys2Proof.Machine
end

section
/-! INIT.B (44_reader_commands.md R161, R162) and the block that no INIT has configured yet (R181). -/

namespace Sys2Proof.Machine

/-- INIT.B conflicts exactly when two of its pins are equal (R161). -/
theorem pinConflict_eq_true_iff (cs clk data : PinId) :
    pinConflict cs clk data = true ↔ cs = clk ∨ cs = data ∨ clk = data := by
  simp [pinConflict, or_assoc]

/-- A well-formed INIT.B has no pin conflict. -/
theorem wellFormed_initB (cs clk data : PinId) : (Instr.initB cs clk data).wellFormed = !pinConflict cs clk data := by
  simp [Instr.wellFormed, pinConflict, bne]

/-- INIT.A of an uninitialized block answers a next state. -/
theorem exec_initA_of_uninit (cs : PinId) (bus : BusId) (s : State) (h : s.lifecycle = .uninit) :
    ∃ t, exec (.initA cs bus) s = .next t := by
  simp [exec, execInitA, h]

/-- INIT.B of an uninitialized block answers a next state when its pins are different. -/
theorem exec_initB_of_uninit (cs clk data : PinId) (s : State) (h : s.lifecycle = .uninit)
    (hp : pinConflict cs clk data = false) : ∃ t, exec (.initB cs clk data) s = .next t := by
  simp [exec, execInitB, h, hp]

/-- Settles O18: the word, the refusals one test at a time, and the whole next state by `execInitB_next`. -/
theorem initBConfiguresBitClocked : Obligations.InitBConfiguresBitClocked := by
  refine ⟨fun c cs clk data => decode_eq_ok_iff c (.initB cs clk data), othersReserved_of_mem ⟨.initB, _, _⟩ (by decide),
    fun cs clk data s hl h1 h2 h3 => ?_, fun cs clk data s hl hp => ?_, fun cs clk data s hl => ?_⟩
  · have hp : pinConflict cs clk data = false := by
      rw [Bool.eq_false_iff, Ne, pinConflict_eq_true_iff]
      tauto
    obtain ⟨t, ht⟩ := exec_initB_of_uninit cs clk data s hl hp
    obtain ⟨-, -, rfl⟩ := execInitB_next cs clk data s t ht
    exact ht
  · simp [exec, execInitB, hl, (pinConflict_eq_true_iff cs clk data).mpr hp]
  · simp [exec, execInitB, hl]

/-- A well-formed INIT of an uninitialized block configures it and keeps what the setters stored. -/
theorem exec_init_of_uninit (i : Instr) (s : State) (hl : s.lifecycle = .uninit) (hi : i.opcode = .initA ∨ i.opcode = .initB)
    (hw : i.wellFormed = true) :
    ∃ t, exec i s = .next t ∧ t.lifecycle = .configured ∧ t.calOffset = s.calOffset ∧ t.seebeck = s.seebeck ∧
      t.spiFreqHz = s.spiFreqHz ∧ t.bitDelayUs = s.bitDelayUs := by
  cases i with
  | initA cs bus =>
    obtain ⟨t, ht⟩ := exec_initA_of_uninit cs bus s hl
    obtain ⟨-, rfl⟩ := execInitA_next cs bus s t ht
    exact ⟨_, ht, rfl, rfl, rfl, rfl, rfl⟩
  | initB cs clk data =>
    rw [wellFormed_initB, Bool.not_eq_true'] at hw
    obtain ⟨t, ht⟩ := exec_initB_of_uninit cs clk data s hl hw
    obtain ⟨-, -, rfl⟩ := execInitB_next cs clk data s t ht
    exact ⟨_, ht, rfl, rfl, rfl, rfl, rfl⟩
  | read | getpt | getit | getst | getts | setofs | setsbk | setfrq | setdly => simp [Instr.opcode] at hi

/-- An uninitialized block accepts every well-formed command but READ. -/
theorem exec_next_of_uninit (i : Instr) (s : State) (hl : s.lifecycle = .uninit) (hr : i ≠ .read) (hw : i.wellFormed = true) :
    ∃ t, exec i s = .next t := by
  cases i with
  | initA cs bus => exact exec_initA_of_uninit cs bus s hl
  | initB cs clk data =>
    obtain ⟨t, ht, -⟩ := exec_init_of_uninit (.initB cs clk data) s hl (.inr rfl) hw
    exact ⟨t, ht⟩
  | read => exact absurd rfl hr
  | getpt | getit | getst | getts | setofs | setsbk | setfrq | setdly => exact ⟨_, rfl⟩

/-- Settles O53: R39's invariants give an uninitialized block the cache and the status of reset, so its queries answer as after
reset. -/
theorem uninitializedBlockAcceptsAllButRead : Obligations.UninitializedBlockAcceptsAllButRead := by
  intro s hinv hl
  obtain ⟨hd, hst⟩ := hinv.uninit_fresh hl
  refine ⟨by simp [exec, execRead, hl], fun i => exec_next_of_uninit i s hl, fun i => exec_init_of_uninit i s hl,
    exec_getpt s (probeReading_of_noData s hd), exec_getit s (internalReading_of_noData s hd), exec_getst s ?_,
    exec_getts s (hinv.no_data_cache hd).2.2⟩
  rw [hd, hst]
  decide

end Sys2Proof.Machine
end

section
/-! The order of the refusal reasons (60_exceptions.md R204): the decoder's two, then those of the lifecycle, then the pins. -/

namespace Sys2Proof

/-- The eleven opcode bytes are different (30_encoding.md R76). -/
theorem Opcode.byte_inj (o o' : Opcode) : o.byte = o'.byte ↔ o = o' := by
  constructor
  · intro h
    have hsome : some o = some o' := by rw [← opcodeOf_byte o, h, opcodeOf_byte]
    exact Option.some.inj hsome
  · rintro rfl
    rfl

/-- The word of a command carries its opcode's byte, and no other's. -/
theorem fieldOpc_encode_eq_byte_iff (i : Instr) (o : Opcode) : fieldOpc (encode i) = o.byte ↔ i.opcode = o := by
  obtain ⟨r, hr, hro, hsel⟩ := encode_rowSelected i
  rw [((row_selects r hr _).mp hsel).1, hro, Opcode.byte_inj]

/-- An unassigned opcode is refused as such, whatever the other fields hold (R79). -/
theorem decode_of_opcodeOf_none (c : Command) (h : opcodeOf (fieldOpc c) = none) : decode c = .error .illegalOpcode := by
  simp [decode, h]

/-- An assigned opcode in a word that no row selects is refused as a reserved field (R78). -/
theorem decode_of_no_row (c : Command) (hopc : opcodeOf (fieldOpc c) ≠ none)
    (hrow : ∀ r ∈ opcodeTable, r.selects c = false) : decode c = .error .reservedField := by
  obtain ⟨o, ho⟩ := Option.ne_none_iff_exists'.mp hopc
  obtain ⟨r, hr, rfl⟩ := mem_opcodeTable o
  refine othersReserved_of_mem r hr c ?_ ?_
  · rw [row_fieldOpc_pattern r hr, opcodeOf_some _ _ ho]
  · simpa [TableRow.selects] using hrow r hr

/-- A word that a row selects is the word of a command (R80). -/
theorem exists_encode_of_selects (r : TableRow) (hr : r ∈ opcodeTable) (c : Command) (h : r.selects c = true) :
    ∃ i : Instr, c = encode i := by
  obtain ⟨hopc, hzero⟩ := (row_selects r hr c).mp h
  exact ⟨assemble r.opcode c, (encode_assemble r.opcode c hopc.symm hzero).symm⟩

end Sys2Proof

namespace Sys2Proof.Machine

/-- A word at the port that decodes to no command is refused with the decoder's reason. -/
theorem step_of_decode_error {s : State} {c : Command} {rest : List HostInput} {e : DecodeError}
    (hq : s.hostQueue = .command c :: rest) (hd : decode c = .error e) : step s = .refused (refusalOf e) := by
  simp [step_eq, hq, hd]

/-- The word of a command at the port runs that command on the state with the word taken. -/
theorem step_of_encode {s : State} {i : Instr} {rest : List HostInput} (hq : s.hostQueue = .command (encode i) :: rest) :
    step s = exec i { s with hostQueue := rest } := by
  simp [step_eq, hq, decode_encode]

/-- A configured block refuses both INITs, equal pins or not (44_reader_commands.md R162). -/
theorem exec_init_of_configured (i : Instr) (s : State) (hl : s.lifecycle = .configured)
    (hi : i.opcode = .initA ∨ i.opcode = .initB) : exec i s = .refused .reinit := by
  cases i with
  | initA cs bus => simp [exec, execInitA, hl]
  | initB cs clk data => simp [exec, execInitB, hl]
  | read | getpt | getit | getst | getts | setofs | setsbk | setfrq | setdly => simp [Instr.opcode] at hi

/-- A configured block accepts every command but the two INITs. -/
theorem exec_next_of_configured (i : Instr) (s : State) (hl : s.lifecycle = .configured)
    (hi : ¬ (i.opcode = .initA ∨ i.opcode = .initB)) : ∃ t, exec i s = .next t := by
  cases i with
  | initA | initB => simp [Instr.opcode] at hi
  | read => exact ⟨_, exec_read_of_configured s hl⟩
  | getpt | getit | getst | getts | setofs | setsbk | setfrq | setdly => exact ⟨_, rfl⟩

/-- An uninitialized block refuses READ (44_reader_commands.md R163). -/
theorem exec_read_of_uninit (s : State) (hl : s.lifecycle = .uninit) : exec .read s = .refused .notInitialized := by
  simp [exec, execRead, hl]

/-- INIT.B is the one command whose word can be ill-formed: that of equal pins (R161). -/
theorem wellFormed_eq_false_iff (i : Instr) :
    i.wellFormed = false ↔ i.opcode = .initB ∧ (fieldA (encode i) = fieldB (encode i) ∨
      fieldA (encode i) = fieldC (encode i) ∨ fieldB (encode i) = fieldC (encode i)) := by
  cases i with
  | initB cs clk data =>
    have hpins := pinConflict_eq_true_iff cs clk data
    simp [wellFormed_initB, Instr.opcode, encode, commandWord_fields, hpins]
  | initA | read | getpt | getit | getst | getts | setofs | setsbk | setfrq | setdly =>
    simp [Instr.wellFormed, Instr.opcode]

/-- An uninitialized block refuses an INIT.B of equal pins (R161). -/
theorem exec_of_not_wellFormed (i : Instr) (s : State) (hl : s.lifecycle = .uninit) (hw : i.wellFormed = false) :
    exec i s = .refused .pinConflict := by
  cases i with
  | initB cs clk data =>
    rw [wellFormed_initB, Bool.not_eq_false'] at hw
    simp [exec, execInitB, hl, hw]
  | initA | read | getpt | getit | getst | getts | setofs | setsbk | setfrq | setdly => simp [Instr.wellFormed] at hw

/-- READ is the one command with READ's opcode. -/
theorem opcode_eq_read_iff (i : Instr) : i.opcode = .read ↔ i = .read := by
  cases i <;> simp [Instr.opcode]

/-- The refusals of a decoded command, in their order: REINIT, NOT_INITIALIZED, PIN_CONFLICT (60_exceptions.md R204). -/
theorem exec_refusal_order (i : Instr) (s : State) :
    if (i.opcode = .initA ∨ i.opcode = .initB) ∧ s.lifecycle = .configured then exec i s = .refused .reinit
    else if i = .read ∧ s.lifecycle = .uninit then exec i s = .refused .notInitialized
    else if i.wellFormed = false then exec i s = .refused .pinConflict
    else ∃ t, exec i s = .next t := by
  cases hl : s.lifecycle with
  | configured =>
    by_cases hi : i.opcode = .initA ∨ i.opcode = .initB
    · simpa [hi] using exec_init_of_configured i s hl hi
    · have hw : i.wellFormed ≠ false := fun h => hi (.inr ((wellFormed_eq_false_iff i).mp h).1)
      simpa [hi, hw] using exec_next_of_configured i s hl hi
  | uninit =>
    by_cases hr : i = .read
    · subst hr
      simpa using exec_read_of_uninit s hl
    · cases hw : i.wellFormed with
      | false => simpa [hr] using exec_of_not_wellFormed i s hl hw
      | true => simpa [hr] using exec_next_of_uninit i s hl hr hw

/-- Settles O54: the decoder's two refusals; a word past them is the word of a command, whose refusals have their order. -/
theorem refusalsFollowTheirOrder : Obligations.RefusalsFollowTheirOrder := by
  intro s c rest hq
  split
  · next hopc => exact step_of_decode_error hq (decode_of_opcodeOf_none c hopc)
  · next hopc =>
    split
    · next hrow => exact step_of_decode_error hq (decode_of_no_row c hopc hrow)
    · next hrow =>
      obtain ⟨r, hr, hsel⟩ : ∃ r ∈ opcodeTable, r.selects c = true := by simpa using hrow
      obtain ⟨i, rfl⟩ := exists_encode_of_selects r hr c hsel
      have hinitA : fieldOpc (encode i) = 0x10#8 ↔ i.opcode = .initA := fieldOpc_encode_eq_byte_iff i .initA
      have hinitB : fieldOpc (encode i) = 0x11#8 ↔ i.opcode = .initB := fieldOpc_encode_eq_byte_iff i .initB
      have hread : fieldOpc (encode i) = 0x20#8 ↔ i = .read :=
        (fieldOpc_encode_eq_byte_iff i .read).trans (opcode_eq_read_iff i)
      have horder := exec_refusal_order i { s with hostQueue := rest }
      simpa only [step_of_encode hq, hinitA, hinitB, hread, ← wellFormed_eq_false_iff] using horder

end Sys2Proof.Machine
end

section
/-! The reset signal at the port (70_reset_and_hazards.md R220). -/

namespace Sys2Proof.Machine

/-- The reset signal at the port is taken and applied. -/
theorem step_of_reset {s : State} {rest : List HostInput} (hq : s.hostQueue = .reset :: rest) :
    step s = .next { s with hostQueue := rest }.applyReset := by
  simp [step_eq, hq]

/-- Settles O10: the step applies the reset, and each register then has the value its `applyReset` rule gives. -/
theorem resetSetsEveryRegister : Obligations.ResetSetsEveryRegister := by
  intro s rest hq
  refine ⟨_, step_of_reset hq, ?_⟩
  simp

end Sys2Proof.Machine
end

section
/-! The decoder against the encoder and the opcode table (30_encoding.md R74 to R80), and the two refusals of the decoder. -/

namespace Sys2Proof

/-- Settles O1: `decode_encode`, the word of a command by its fields. -/
theorem decodeInvertsEncode : Obligations.DecodeInvertsEncode := decode_encode

/-- Settles O2: a word that decodes is the word of its command, by `decode_eq_ok_iff`. -/
theorem encodeInvertsDecode : Obligations.EncodeInvertsDecode := fun c i h => ((decode_eq_ok_iff c i).mp h).symm

/-- Decoding a word to a command is selecting a row for it and assembling that row's operands (R80). -/
theorem decode_eq_ok_iff_selects (c : Command) (i : Instr) :
    decode c = .ok i ↔ ∃ r ∈ opcodeTable, r.selects c = true ∧ assemble r.opcode c = i := by
  rw [decode_ok_iff]
  constructor
  · rintro ⟨o, hopc, hzero, hi⟩
    obtain ⟨r, hr, rfl⟩ := mem_opcodeTable o
    exact ⟨r, hr, (row_selects r hr c).mpr ⟨hopc.symm, hzero⟩, hi⟩
  · rintro ⟨r, hr, hsel, hi⟩
    obtain ⟨hopc, hzero⟩ := (row_selects r hr c).mp hsel
    exact ⟨r.opcode, hopc.symm, hzero, hi⟩

/-- The table has one row for each opcode (R76). -/
theorem row_eq_of_opcode_eq : ∀ r ∈ opcodeTable, ∀ r' ∈ opcodeTable, r.opcode = r'.opcode → r = r' := by decide

/-- At most one row selects a word: the row's opcode is in the word (R80). -/
theorem row_unique (c : Command) (r : TableRow) (hr : r ∈ opcodeTable) (r' : TableRow) (hr' : r' ∈ opcodeTable)
    (hsel : r.selects c = true) (hsel' : r'.selects c = true) : r = r' := by
  have hopc := ((row_selects r hr c).mp hsel).1
  have hopc' := ((row_selects r' hr' c).mp hsel').1
  exact row_eq_of_opcode_eq r hr r' hr' ((Opcode.byte_inj _ _).mp (hopc.symm.trans hopc'))

/-- An opcode byte is assigned exactly when some row carries it (R76). -/
theorem exists_row_iff_opcodeOf_ne_none (b : BitVec 8) :
    (∃ r ∈ opcodeTable, fieldOpc r.pattern = b) ↔ opcodeOf b ≠ none := by
  constructor
  · rintro ⟨r, hr, rfl⟩
    simp [row_fieldOpc_pattern r hr]
  · intro h
    obtain ⟨o, ho⟩ := Option.ne_none_iff_exists'.mp h
    obtain ⟨r, hr, rfl⟩ := mem_opcodeTable o
    exact ⟨r, hr, (row_fieldOpc_pattern r hr).trans (opcodeOf_some _ _ ho)⟩

/-- Settles O3: selection of a row, its uniqueness, and the two errors told apart by the opcode. -/
theorem decodingIsRowSelection : Obligations.DecodingIsRowSelection := by
  refine ⟨decode_eq_ok_iff_selects, row_unique, fun c hrow => ?_⟩
  simp only [exists_row_iff_opcodeOf_ne_none]
  split
  · next hopc => exact decode_of_no_row c hopc hrow
  · next hopc => exact decode_of_opcodeOf_none c (not_not.mp hopc)

/-- An opcode byte is unassigned exactly when it is none of the eleven of the opcode map (R76, R79). -/
theorem opcodeOf_eq_none_iff (b : BitVec 8) : opcodeOf b = none ↔ b ∉ Opcode.all.map Opcode.byte := by
  simp [opcodeOf]

/-- Settles O6: each word is the word of its command. -/
theorem specWordsDecode : Obligations.SpecWordsDecode := by
  simp only [Obligations.SpecWordsDecode, decode_eq_ok_iff]
  decide

end Sys2Proof

namespace Sys2Proof.Machine

/-- A refused command word is spent and sets the mark; nothing else changes (60_exceptions.md R203). -/
theorem refusedWithoutEffect_of_refused {s : State} {c : Command} {rest : List HostInput} {r : Refusal}
    (hq : s.hostQueue = .command c :: rest) (h : step s = .refused r) : RefusedWithoutEffect s rest r := by
  refine ⟨h, ?_⟩
  rw [hostStep_of_refused s r h, afterRefusal, hq, List.tail_cons]

/-- Settles O4: an opcode outside the map decodes to ILLEGAL_OPCODE; the unassigned ones are counted. -/
theorem unassignedOpcodesAreRefused : Obligations.UnassignedOpcodesAreRefused := by
  refine ⟨fun s c rest hq hopc => ?_, by decide +kernel⟩
  have hd := decode_of_opcodeOf_none c ((opcodeOf_eq_none_iff _).mpr hopc)
  exact refusedWithoutEffect_of_refused hq (step_of_decode_error hq hd)

/-- Settles O5: a word with a row's opcode that the row does not select decodes to RESERVED_FIELD. -/
theorem nonzeroReservedFieldsAreRefused : Obligations.NonzeroReservedFieldsAreRefused := by
  intro s c rest hq r hr hopc hsel
  have hmask : c &&& r.mask ≠ r.pattern := by simpa [TableRow.selects] using hsel
  exact refusedWithoutEffect_of_refused hq (step_of_decode_error hq (othersReserved_of_mem r hr c hopc hmask))

end Sys2Proof.Machine
end

section
/-! What a command that answers a next state does, said once for all eleven, and what every step leaves unchanged. -/

namespace Sys2Proof.Machine

/-- The state a query or a setter leaves: the four registers that setters write, and one response more
(44_reader_commands.md R178, R179). -/
def State.withSettings (s : State) (offset coeff : F32) (hz : Word) (us : BitVec 16) (w : Word) : State :=
  { s with calOffset := offset, seebeck := coeff, spiFreqHz := hz, bitDelayUs := us, responses := s.responses ++ [w] }

/-- The events a command appends when it answers a next state (44_reader_commands.md R160 to R179). -/
def commandEvents (i : Instr) (s : State) : List Event :=
  match i with
  | .initA cs bus => [.pinMode cs .output, .pinWrite cs .high, .busBegin bus]
  | .initB cs clk data =>
    [.pinMode cs .output, .pinWrite cs .high, .pinMode clk .output, .pinWrite clk .low, .pinMode data .input]
  | .read => transferEvents s
  | .getpt | .getit | .getst | .getts | .setofs _ | .setsbk _ | .setfrq _ | .setdly _ => []

/-- If a command answers a next state, it is an INIT of an uninitialized block, a READ of a configured one, or a query or a setter. -/
theorem exec_next_cases (i : Instr) (s t : State) (h : exec i s = .next t) :
    (∃ cs bus, i = .initA cs bus ∧ s.lifecycle = .uninit ∧ t = { s with
      lifecycle := .configured, transport := .accel, pinCs := cs, busId := bus, lineCs := .high
      trace := s.trace ++ commandEvents i s, responses := s.responses ++ [0x00000000#32] }) ∨
    (∃ cs clk data, i = .initB cs clk data ∧ s.lifecycle = .uninit ∧ pinConflict cs clk data = false ∧ t = { s with
      lifecycle := .configured, transport := .bitclk, pinCs := cs, pinClk := clk, pinData := data
      lineCs := .high, lineClk := .low
      trace := s.trace ++ commandEvents i s, responses := s.responses ++ [0x00000000#32] }) ∨
    (i = .read ∧ s.lifecycle = .configured ∧ t = (readFrame s).respond (statusWord (readFrame s).status)) ∨
    (i ≠ .read ∧ commandEvents i s = [] ∧ ∃ offset coeff hz us w, t = s.withSettings offset coeff hz us w) := by
  cases i with
  | initA cs bus =>
    obtain ⟨hl, ht⟩ := execInitA_next cs bus s t h
    exact .inl ⟨cs, bus, rfl, hl, ht⟩
  | initB cs clk data =>
    obtain ⟨hl, hp, ht⟩ := execInitB_next cs clk data s t h
    exact .inr (.inl ⟨cs, clk, data, rfl, hl, hp, ht⟩)
  | read =>
    obtain ⟨hl, ht⟩ := execRead_next s t h
    exact .inr (.inr (.inl ⟨rfl, hl, ht⟩))
  | getpt | getit | getst | getts | setofs _ | setsbk _ | setfrq _ | setdly _ =>
    injection h with h
    exact .inr (.inr (.inr ⟨nofun, rfl, _, _, _, _, _, h.symm⟩))

/-- A READ writes what its transfer writes, then the cache, and draws from the time source; nothing else (R163, R165). -/
theorem readFrame_writes (s : State) : ∃ st hd ic pc ts times n, readFrame s = { afterTransfer s with
    status := st, hasData := hd, intCode := ic, probeCode := pc, lastReadTs := ts, nowAnswers := times, draws := n } := by
  rw [readFrame_eq, decodeFrame_eq]
  split
  · exact ⟨_, _, _, _, _, _, _, rfl⟩
  · exact ⟨_, _, _, _, _, _, _, rfl⟩

/-- A command that answers a next state has appended its `commandEvents`, and no other event. -/
theorem exec_next_trace (i : Instr) (s t : State) (h : exec i s = .next t) : t.trace = s.trace ++ commandEvents i s := by
  obtain ⟨cs, bus, rfl, -, rfl⟩ | ⟨cs, clk, data, rfl, -, -, rfl⟩ | ⟨rfl, -, rfl⟩ | ⟨-, hev, _, _, _, _, _, rfl⟩ :=
    exec_next_cases i s t h
  · rfl
  · rfl
  · exact readFrame_trace s
  · exact (hev ▸ List.append_nil s.trace).symm

/-- No command writes a parameter or the refusal mark. -/
theorem exec_next_params (i : Instr) (s t : State) (h : exec i s = .next t) :
    t.params = s.params ∧ t.refusalMark = s.refusalMark := by
  obtain ⟨cs, bus, rfl, -, rfl⟩ | ⟨cs, clk, data, rfl, -, -, rfl⟩ | ⟨rfl, -, rfl⟩ | ⟨-, -, _, _, _, _, _, rfl⟩ :=
    exec_next_cases i s t h
  · exact ⟨rfl, rfl⟩
  · exact ⟨rfl, rfl⟩
  · obtain ⟨_, _, _, _, _, _, _, hread⟩ := readFrame_writes s
    rw [hread]
    exact ⟨rfl, rfl⟩
  · exact ⟨rfl, rfl⟩

/-- Every command but READ leaves `STATUS` and the cached fields (10_state.md section 4). -/
theorem exec_next_cache (i : Instr) (s t : State) (hi : i ≠ .read) (h : exec i s = .next t) :
    t.status = s.status ∧ t.hasData = s.hasData ∧ t.intCode = s.intCode ∧ t.probeCode = s.probeCode ∧
      t.lastReadTs = s.lastReadTs := by
  obtain ⟨cs, bus, rfl, -, rfl⟩ | ⟨cs, clk, data, rfl, -, -, rfl⟩ | ⟨rfl, -, -⟩ | ⟨-, -, _, _, _, _, _, rfl⟩ :=
    exec_next_cases i s t h
  · exact ⟨rfl, rfl, rfl, rfl, rfl⟩
  · exact ⟨rfl, rfl, rfl, rfl, rfl⟩
  · exact absurd rfl hi
  · exact ⟨rfl, rfl, rfl, rfl, rfl⟩

/-- No command that a configured block accepts changes its lifecycle, transport, pins or bus (44_reader_commands.md R162). -/
theorem exec_next_configuration (i : Instr) (s t : State) (hl : s.lifecycle = .configured) (h : exec i s = .next t) :
    t.lifecycle = .configured ∧ t.transport = s.transport ∧ t.pinCs = s.pinCs ∧ t.pinClk = s.pinClk ∧
      t.pinData = s.pinData ∧ t.busId = s.busId := by
  obtain ⟨cs, bus, rfl, hu, -⟩ | ⟨cs, clk, data, rfl, hu, -, -⟩ | ⟨rfl, -, rfl⟩ | ⟨-, -, _, _, _, _, _, rfl⟩ :=
    exec_next_cases i s t h
  · simp [hl] at hu
  · simp [hl] at hu
  · obtain ⟨_, _, _, _, _, _, _, hread⟩ := readFrame_writes s
    rw [hread]
    exact ⟨hl, rfl, rfl, rfl, rfl, rfl⟩
  · exact ⟨hl, rfl, rfl, rfl, rfl, rfl⟩

end Sys2Proof.Machine
end

section
/-! Steps (00_scope.md R4; 60_exceptions.md R212; 70_reset_and_hazards.md R220) and what they leave unchanged. -/

namespace Sys2Proof.Machine

/-- Settles O8: a word that decodes is the word of its command, which the step runs. -/
theorem stepRunsTheDecodedCommand : Obligations.StepRunsTheDecodedCommand := by
  intro s c rest i hq hd
  rw [(decode_eq_ok_iff c i).mp hd] at hq
  exact step_of_encode hq

/-- Settles O9: the empty port of `step_eq`. -/
theorem idleBlockHoldsItsState : Obligations.IdleBlockHoldsItsState := fun s hq => by rw [step_eq, hq]

/-- Settles O11: `applyReset`, field by field. -/
theorem resetKeepsWhatLiesOutsideTheBlock : Obligations.ResetKeepsWhatLiesOutsideTheBlock := fun _ _ hq => step_of_reset hq

/-- Settles O16: a reset keeps the parameters, and so does every command. -/
theorem parametersNeverChange : Obligations.ParametersNeverChange := by
  intro s t h
  obtain ⟨-, rfl⟩ | ⟨rest, -, rfl⟩ | ⟨c, rest, i, -, -, he⟩ := step_next_cases s t h
  · rfl
  · rfl
  · exact (exec_next_params i _ t he).1

/-- Settles O50: the command of the step is no READ, and no other command writes the cache. -/
theorem onlyReadWritesTheCache : Obligations.OnlyReadWritesTheCache := by
  intro s t h hreset hread
  obtain ⟨-, rfl⟩ | ⟨rest, hq, -⟩ | ⟨c, rest, i, hq, hd, he⟩ := step_next_cases s t h
  · exact ⟨rfl, rfl, rfl, rfl, rfl⟩
  · exact absurd (by rw [hq]; rfl) hreset
  · have hi : i ≠ .read := by
      rintro rfl
      exact hread c (by rw [hq]; rfl) hd
    exact exec_next_cache i { s with hostQueue := rest } t hi he

/-- Settles O19: a configured block refuses both INITs, and no other command writes its configuration. -/
theorem initializationHappensOnce : Obligations.InitializationHappensOnce := by
  refine ⟨fun s c rest i hq hd hl hi => refusedWithoutEffect_of_refused hq ?_, fun s t hl hreset h => ?_⟩
  · rw [stepRunsTheDecodedCommand s c rest i hq hd]
    exact exec_init_of_configured i _ hl hi
  · obtain ⟨-, rfl⟩ | ⟨rest, hq, -⟩ | ⟨c, rest, i, -, -, he⟩ := step_next_cases s t h
    · exact ⟨hl, rfl, rfl, rfl, rfl, rfl⟩
    · exact absurd (by rw [hq]; rfl) hreset
    · exact exec_next_configuration i { s with hostQueue := rest } t hl he

/-- Settles O17: the word, the refusals, and the whole next state by `execInitA_next`. -/
theorem initAConfiguresAccelerated : Obligations.InitAConfiguresAccelerated := by
  refine ⟨fun c cs bus => decode_eq_ok_iff c (.initA cs bus), othersReserved_of_mem ⟨.initA, _, _⟩ (by decide),
    fun cs bus s hl => ?_, fun cs bus s hl => exec_init_of_configured _ s hl (.inl rfl)⟩
  obtain ⟨t, ht⟩ := exec_initA_of_uninit cs bus s hl
  obtain ⟨-, rfl⟩ := execInitA_next cs bus s t ht
  exact ht

end Sys2Proof.Machine
end

section
/-! The invariants of the registers (10_state.md R39) and of the lines (R36): every step keeps them, so every reachable state has
them. -/

namespace Sys2Proof.Machine

/-! The register invariants. -/

/-- The registers of reset have the invariants, whatever lies outside the block. -/
theorem resetWith_regInv (p : Params) (responses : List Word) (mark : Option Refusal) (q : List HostInput)
    (pins : List (BitVec 1)) (bytes : List Byte) (times : List Word) (n : ℕ) :
    RegInv { State.resetWith p with
      responses := responses, refusalMark := mark, hostQueue := q, pinAnswers := pins, busAnswers := bytes
      nowAnswers := times, draws := n } :=
  ⟨.inr (.inl rfl), fun _ => ⟨rfl, rfl, rfl⟩, fun _ => .inl rfl, fun _ => ⟨rfl, rfl⟩, .inl rfl⟩

/-- Taking an input from the port bears on no register invariant. -/
theorem RegInv.with_hostQueue {s : State} (h : RegInv s) (rest : List HostInput) : RegInv { s with hostQueue := rest } :=
  ⟨h.status_legal, h.no_data_cache, h.no_data_status, h.uninit_fresh, h.cs_released⟩

/-- A READ leaves a legal status; it has data unless the frame was the sentinel, which leaves the cache; chip-select is high. -/
theorem exec_read_regInv (s : State) (hl : s.lifecycle = .configured) (h : RegInv s) :
    RegInv ((readFrame s).respond (statusWord (readFrame s).status)) := by
  rw [readFrame_eq, decodeFrame_eq]
  split
  · exact ⟨.inr (.inr rfl), h.no_data_cache, fun _ => .inr rfl, fun hu => absurd (hl.symm.trans hu) nofun, .inr rfl⟩
  · refine ⟨.inl ?_, nofun, nofun, fun hu => absurd (hl.symm.trans hu) nofun, .inr rfl⟩
    have hstat := (frameStat (transferFrame s)).isLt
    simp only [respond_status, BitVec.toNat_setWidth]
    omega

/-- Every command that answers a next state keeps the register invariants. -/
theorem exec_keeps_regInv (i : Instr) (s t : State) (hinv : RegInv s) (h : exec i s = .next t) : RegInv t := by
  obtain ⟨cs, bus, rfl, -, rfl⟩ | ⟨cs, clk, data, rfl, -, -, rfl⟩ | ⟨rfl, hl, rfl⟩ | ⟨-, -, _, _, _, _, _, rfl⟩ :=
    exec_next_cases i s t h
  · exact ⟨hinv.status_legal, hinv.no_data_cache, hinv.no_data_status, nofun, .inr rfl⟩
  · exact ⟨hinv.status_legal, hinv.no_data_cache, hinv.no_data_status, nofun, .inr rfl⟩
  · exact exec_read_regInv s hl hinv
  · exact ⟨hinv.status_legal, hinv.no_data_cache, hinv.no_data_status, hinv.uninit_fresh, hinv.cs_released⟩

/-- Settles O13: an idle step, a reset, and a command. -/
theorem stepKeepsRegisterInvariants : Obligations.StepKeepsRegisterInvariants := by
  intro s t hinv h
  obtain ⟨-, rfl⟩ | ⟨rest, -, rfl⟩ | ⟨c, rest, i, -, -, he⟩ := step_next_cases s t h
  · exact hinv
  · exact resetWith_regInv ..
  · exact exec_keeps_regInv i _ t (hinv.with_hostQueue rest) he

/-! The level that a trace last drove. -/

/-- The later events decide, where they drive the pin at all: for one event before them. -/
theorem lastDriven_cons (p : PinId) (e : Event) (l : List Event) :
    lastDriven p (e :: l) = if lastDriven p l = .undriven then lastDriven p [e] else lastDriven p l := by
  rw [lastDriven.eq_def p (e :: l)]
  dsimp only
  cases lastDriven p l <;> rfl

/-- The later events decide, where they drive the pin at all. -/
theorem lastDriven_append (p : PinId) (l l' : List Event) :
    lastDriven p (l ++ l') = if lastDriven p l' = .undriven then lastDriven p l else lastDriven p l' := by
  induction l with
  | nil => exact (ite_eq_right_iff.mpr Eq.symm).symm
  | cons e l ih =>
    rw [List.cons_append, lastDriven_cons, ih, lastDriven_cons p e l]
    split_ifs <;> rfl

/-- What the later events drove is what the whole trace last drove. -/
theorem lastDriven_append_of_high {p : PinId} {l' : List Event} (l : List Event) (h : lastDriven p l' = .high) :
    lastDriven p (l ++ l') = .high := by
  simp [lastDriven_append, h]

/-- Later events that drive other pins do not count. -/
theorem lastDriven_append_of_undriven {p : PinId} {l' : List Event} (l : List Event) (h : lastDriven p l' = .undriven) :
    lastDriven p (l ++ l') = lastDriven p l := by
  simp [lastDriven_append, h]

/-- A half-delay drives no pin. -/
theorem lastDriven_delayEvents (p : PinId) (n : BitVec 16) : lastDriven p (delayEvents n) = .undriven := by
  unfold delayEvents
  split <;> rfl

/-- A bit group leaves the clock high (43_bitclocked_transport.md R142). -/
theorem lastDriven_bitGroup (clk data : PinId) (d : BitVec 16) (b : BitVec 1) :
    lastDriven clk (bitGroup clk data d b) = .high := by
  have hsplit : bitGroup clk data d b = (.pinWrite clk .low :: delayEvents (delayLow d)) ++
      [.pinRead data b, .pinWrite clk .high] ++ delayEvents (delayHigh d) := by simp [bitGroup]
  rw [hsplit, lastDriven_append_of_undriven _ (lastDriven_delayEvents ..)]
  exact lastDriven_append_of_high _ (by simp [lastDriven, Level.line])

/-- An accelerated transfer leaves chip-select high (42_accelerated_transport.md R120). -/
theorem lastDriven_accelEvents (s : State) : lastDriven s.pinCs (accelEvents s) = .high := by
  simp [accelEvents, lastDriven, Level.line]

/-- A bit-clocked transfer leaves chip-select high (43_bitclocked_transport.md R141). -/
theorem lastDriven_cs_clockedEvents (s : State) : lastDriven s.pinCs (clockedEvents s) = .high := by
  rw [clockedEvents, ← List.cons_append]
  exact lastDriven_append_of_high _ (by simp [lastDriven, Level.line])

/-- A bit-clocked transfer leaves a clock apart from chip-select high (R142). -/
theorem lastDriven_clk_clockedEvents (s : State) (h : s.pinCs ≠ s.pinClk) : lastDriven s.pinClk (clockedEvents s) = .high := by
  rw [clockedEvents, ← List.cons_append, lastDriven_append_of_undriven _ (by simp [lastDriven, h]), List.range_succ,
    List.flatMap_append, ← List.cons_append]
  refine lastDriven_append_of_high _ ?_
  simpa using lastDriven_bitGroup ..

/-- The transfer of a READ leaves chip-select high, under either transport. -/
theorem lastDriven_transferEvents (s : State) : lastDriven s.pinCs (transferEvents s) = .high := by
  unfold transferEvents
  split
  · exact lastDriven_accelEvents s
  · exact lastDriven_cs_clockedEvents s

/-! The line invariant. -/

/-- The registers of reset have the invariant, whatever lies outside the block. -/
theorem resetWith_lineInv (p : Params) (responses : List Word) (mark : Option Refusal) (q : List HostInput)
    (pins : List (BitVec 1)) (bytes : List Byte) (times : List Word) (n : ℕ) :
    LineInv { State.resetWith p with
      responses := responses, refusalMark := mark, hostQueue := q, pinAnswers := pins, busAnswers := bytes
      nowAnswers := times, draws := n } :=
  ⟨fun _ => ⟨rfl, rfl, rfl⟩, nofun, nofun, fun _ => rfl, nofun⟩

/-- Taking an input from the port bears on no line. -/
theorem LineInv.with_hostQueue {s : State} (h : LineInv s) (rest : List HostInput) : LineInv { s with hostQueue := rest } :=
  ⟨h.uninit_silent, h.cs_traced, h.clk_traced, h.clk_unused, h.pins_distinct⟩

/-- A READ leaves chip-select high and, under `BITCLK`, the clock, which is another pin; under `ACCEL` it leaves the clock alone. -/
theorem exec_read_lineInv (s : State) (hl : s.lifecycle = .configured) (h : LineInv s) :
    LineInv ((readFrame s).respond (statusWord (readFrame s).status)) := by
  obtain ⟨_, _, _, _, _, _, _, hread⟩ := readFrame_writes s
  rw [hread]
  refine ⟨fun hu => absurd (hl.symm.trans hu) nofun, fun _ => ?_, fun _ ht => ?_, fun ht => ?_, h.pins_distinct⟩
  · exact (lastDriven_append_of_high _ (lastDriven_transferEvents s)).symm
  · have ht' : s.transport = .bitclk := ht
    have hclk := lastDriven_clk_clockedEvents s (h.pins_distinct ht').1
    simp [afterTransfer, transferEvents, ht', lastDriven_append_of_high _ hclk]
  · have ht' : s.transport = .accel := ht
    simp [afterTransfer, ht', h.clk_unused ht']

/-- Every command that answers a next state keeps the line invariant. -/
theorem exec_keeps_lineInv (i : Instr) (s t : State) (hinv : LineInv s) (h : exec i s = .next t) : LineInv t := by
  obtain ⟨cs, bus, rfl, hl, rfl⟩ | ⟨cs, clk, data, rfl, hl, hp, rfl⟩ | ⟨rfl, hl, rfl⟩ | ⟨-, -, _, _, _, _, _, rfl⟩ :=
    exec_next_cases i s t h
  · obtain ⟨htrace, -, hclk⟩ := hinv.uninit_silent hl
    refine ⟨nofun, fun _ => ?_, nofun, fun _ => hclk, nofun⟩
    simp [htrace, commandEvents, lastDriven, Level.line]
  · obtain ⟨htrace, -, -⟩ := hinv.uninit_silent hl
    obtain ⟨h1, h2, h3⟩ : cs ≠ clk ∧ cs ≠ data ∧ clk ≠ data := by simpa [pinConflict, and_assoc] using hp
    refine ⟨nofun, fun _ => ?_, fun _ _ => ?_, nofun, fun _ => ⟨h1, h2, h3⟩⟩
    · simp [htrace, commandEvents, lastDriven, Level.line, h1.symm]
    · simp [htrace, commandEvents, lastDriven, Level.line]
  · exact exec_read_lineInv s hl hinv
  · exact ⟨hinv.uninit_silent, hinv.cs_traced, hinv.clk_traced, hinv.clk_unused, hinv.pins_distinct⟩

/-- Settles O14: an idle step, a reset, and a command. -/
theorem stepKeepsLinesEqualToTrace : Obligations.StepKeepsLinesEqualToTrace := by
  intro s t hinv h
  obtain ⟨-, rfl⟩ | ⟨rest, -, rfl⟩ | ⟨c, rest, i, -, -, he⟩ := step_next_cases s t h
  · exact hinv
  · exact resetWith_lineInv ..
  · exact exec_keeps_lineInv i _ t (hinv.with_hostQueue rest) he

/-! Reachable states. -/

/-- Settles O12: the reset state with nothing outside the block. -/
theorem resetStateHasTheInvariants : Obligations.ResetStateHasTheInvariants := fun p =>
  ⟨resetWith_regInv p [] none [] [] [] [] 0, resetWith_lineInv p [] none [] [] [] [] 0⟩

/-- A predicate that every step and every refusal keeps holds along the host's run. -/
theorem hostRun_induction {P : State → Prop} (hstep : ∀ s t, P s → step s = .next t → P t)
    (hrefused : ∀ s r, P s → P (afterRefusal s r)) (n : ℕ) (s : State) (h : P s) : P (hostRun n s) := by
  induction n generalizing s with
  | zero => exact h
  | succ n ih =>
    refine ih _ ?_
    cases hs : step s with
    | next t => exact hostStep_of_next s t hs ▸ hstep s t h hs
    | refused r => exact hostStep_of_refused s r hs ▸ hrefused s r h
    | fault f => exact nomatch f

/-- Settles O15: both invariants hold at reset, and a step keeps them (O13, O14), as does a refusal, which changes no register. -/
theorem reachableStatesHaveTheInvariants : Obligations.ReachableStatesHaveTheInvariants := by
  rintro s n ⟨p, q, pins, bytes, times, rfl⟩
  refine hostRun_induction (P := fun s => RegInv s ∧ LineInv s) (fun s t ⟨hreg, hline⟩ hs => ?_)
    (fun s r ⟨hreg, hline⟩ => ?_) n _ ?_
  · exact ⟨stepKeepsRegisterInvariants s t hreg hs, stepKeepsLinesEqualToTrace s t hline hs⟩
  · exact ⟨⟨hreg.status_legal, hreg.no_data_cache, hreg.no_data_status, hreg.uninit_fresh, hreg.cs_released⟩,
      hline.uninit_silent, hline.cs_traced, hline.clk_traced, hline.clk_unused, hline.pins_distinct⟩
  · exact ⟨resetWith_regInv p [] none q pins bytes times 0, resetWith_lineInv p [] none q pins bytes times 0⟩

end Sys2Proof.Machine
end

section
/-! The transfers (42_accelerated_transport.md, 43_bitclocked_transport.md): the bytes of a frame, the delays, the chip-select
events, the frames that the environment can give. -/

namespace Sys2Proof.Machine

/-- The four bytes of a word, highest first (42_accelerated_transport.md R124). -/
theorem append_bytes_extract (b0 b1 b2 b3 : Byte) :
    (b0 ++ b1 ++ b2 ++ b3).extractLsb' 24 8 = b0 ∧ (b0 ++ b1 ++ b2 ++ b3).extractLsb' 16 8 = b1 ∧
      (b0 ++ b1 ++ b2 ++ b3).extractLsb' 8 8 = b2 ∧ (b0 ++ b1 ++ b2 ++ b3).extractLsb' 0 8 = b3 := by
  refine ⟨?_, ?_, ?_, ?_⟩
  · rw [BitVec.extractLsb'_append_eq_of_le (by decide), BitVec.extractLsb'_append_eq_of_le (by decide)]
    exact BitVec.extractLsb'_append_eq_left
  · rw [BitVec.extractLsb'_append_eq_of_le (by decide), BitVec.extractLsb'_append_eq_of_le (by decide)]
    exact BitVec.extractLsb'_append_eq_right
  · rw [BitVec.extractLsb'_append_eq_of_le (by decide)]
    exact BitVec.extractLsb'_append_eq_right
  · exact BitVec.extractLsb'_append_eq_right

/-- A word is its four bytes, highest first. -/
theorem append_extract_bytes (w : Frame) :
    w.extractLsb' 24 8 ++ w.extractLsb' 16 8 ++ w.extractLsb' 8 8 ++ w.extractLsb' 0 8 = w := by
  have h2 : w.extractLsb' 24 8 ++ w.extractLsb' 16 8 = w.extractLsb' 16 16 :=
    BitVec.extractLsb'_append_extractLsb'_eq_extractLsb' rfl
  have h3 : w.extractLsb' 16 16 ++ w.extractLsb' 8 8 = w.extractLsb' 8 24 :=
    BitVec.extractLsb'_append_extractLsb'_eq_extractLsb' rfl
  have h4 : w.extractLsb' 8 24 ++ w.extractLsb' 0 8 = w.extractLsb' 0 32 :=
    BitVec.extractLsb'_append_extractLsb'_eq_extractLsb' rfl
  rw [h2, h3, h4, BitVec.extractLsb'_eq_self]

/-- Settles O20: the closed form of `xferA`, and the bytes of its frame. -/
theorem acceleratedTransferExchangesFourBytes : Obligations.AcceleratedTransferExchangesFourBytes := by
  refine ⟨xferA_eq, fun s b0 b1 b2 b3 rest h => ?_⟩
  have hframe : accelFrame s = b0 ++ b1 ++ b2 ++ b3 := by simp [accelFrame, State.busAnswerAt, h]
  obtain ⟨h0, h1, h2, h3⟩ := append_bytes_extract b0 b1 b2 b3
  rw [xferA_eq, hframe]
  exact ⟨rfl, h0, h1, h2, h3, by simp [h]⟩

/-- Settles O24: the events of `xferB` are `clockedEvents`. -/
theorem delaysOfATransferSumTo32D : Obligations.DelaysOfATransferSumTo32D := fun s =>
  ⟨clockedEvents s, by rw [xferB_eq], totalDelay_clockedEvents s⟩

/-- A half-delay writes no pin. -/
theorem pinWrite_not_mem_delayEvents (p : PinId) (l : Level) (n : BitVec 16) : .pinWrite p l ∉ delayEvents n := by
  unfold delayEvents
  split <;> simp

/-- A bit group writes no pin but the clock (43_bitclocked_transport.md R142). -/
theorem pinWrite_not_mem_bitGroup {p clk : PinId} (hp : p ≠ clk) (data : PinId) (d : BitVec 16) (b : BitVec 1) (l : Level) :
    .pinWrite p l ∉ bitGroup clk data d b := by
  simp [bitGroup, hp, pinWrite_not_mem_delayEvents]

/-- An accelerated transfer drives chip-select low once and high once (42_accelerated_transport.md R121). -/
theorem accelEvents_count_cs (s : State) (l : Level) : (accelEvents s).count (.pinWrite s.pinCs l) = 1 := by
  cases l <;> simp [accelEvents]

/-- A bit-clocked transfer with a clock apart from chip-select drives chip-select low once and high once (R141). -/
theorem clockedEvents_count_cs (s : State) (h : s.pinCs ≠ s.pinClk) (l : Level) :
    (clockedEvents s).count (.pinWrite s.pinCs l) = 1 := by
  have hgroups : ((List.range 32).flatMap fun k => bitGroup s.pinClk s.pinData s.bitDelayUs (s.pinAnswerAt k)).count
      (.pinWrite s.pinCs l) = 0 := by
    rw [List.count_eq_zero, List.mem_flatMap]
    rintro ⟨k, -, hmem⟩
    exact pinWrite_not_mem_bitGroup h _ _ _ l hmem
  rw [clockedEvents, List.count_cons, List.count_append, hgroups]
  cases l <;> simp

/-- Settles O25: the events of a READ are those of its one transfer. -/
theorem readSelectsTheSensorOnce : Obligations.ReadSelectsTheSensorOnce := by
  intro s hinv hl
  have hread := exec_read_of_configured s hl
  have hcount (l : Level) : (transferEvents s).count (.pinWrite s.pinCs l) = 1 := by
    cases ht : s.transport with
    | accel => simpa [transferEvents, ht] using accelEvents_count_cs s l
    | bitclk => simpa [transferEvents, ht] using clockedEvents_count_cs s (hinv.pins_distinct ht).1 l
  refine ⟨_, transferEvents s, hread, readFrame_trace s, hcount .low, hcount .high, ?_⟩
  obtain ⟨_, _, _, _, _, _, _, hwrites⟩ := readFrame_writes s
  rw [hwrites]
  rfl

/-- The bits of a word, highest first, as samples. -/
def frameSamples (w : Frame) : List (BitVec 1) := (List.range 32).map fun k => BitVec.ofBool (w.getLsbD (31 - k))

/-- The bits of a word, highest first, as samples give that word back (43_bitclocked_transport.md R144). -/
theorem clockedFrame_frameSamples (s : State) (w : Frame) : clockedFrame { s with pinAnswers := frameSamples w } = w := by
  apply BitVec.eq_of_getLsbD_eq
  intro i hi
  obtain ⟨k, hk, rfl⟩ : ∃ k, k < 32 ∧ i = 31 - k := ⟨31 - i, by omega, by omega⟩
  rw [clockedFrame_getLsbD _ k hk]
  simp [State.pinAnswerAt, frameSamples, hk]

/-- Settles O26: the bytes of the word, and its bits, are answers that give it. -/
theorem everyFrameIsPossible : Obligations.EveryFrameIsPossible := by
  refine fun s w => ⟨⟨[w.extractLsb' 24 8, w.extractLsb' 16 8, w.extractLsb' 8 8, w.extractLsb' 0 8], ?_⟩,
    frameSamples w, ?_⟩
  · rw [xferA_eq]
    exact append_extract_bytes w
  · rw [xferB_eq]
    exact clockedFrame_frameSamples s w

end Sys2Proof.Machine
end

section
/-! Frames and temperatures (41_frame_decoder.md R107, R109): codes as two's complement, and the frame encoder inverted. -/

namespace Sys2Proof.Machine

/-- A code of `n + 1` bits in two's complement: the magnitude of the low `n` bits, less `2 ^ n` when the top bit is set. -/
theorem toInt_eq_signed_magnitude (n : ℕ) (k : BitVec (n + 1)) :
    k.toInt = (if k.getLsbD n then -2 ^ n else 0) + ((k.toNat % 2 ^ n : ℕ) : ℤ) := by
  have hlt : k.toNat < 2 ^ n * 2 := k.isLt
  have hmsb : k.getLsbD n = decide (2 ^ n ≤ k.toNat) := by
    have := BitVec.msb_eq_decide k
    rwa [BitVec.msb_eq_getLsbD_last] at this
  rw [BitVec.toInt_eq_toNat_cond, hmsb, pow_succ]
  by_cases h : 2 ^ n ≤ k.toNat
  · have hmod : k.toNat % 2 ^ n = k.toNat - 2 ^ n := by
      rw [Nat.mod_eq_sub_mod h, Nat.mod_eq_of_lt (by omega)]
    rw [if_neg (by omega), decide_eq_true h, if_pos rfl, hmod]
    push_cast [h]
    ring
  · rw [if_pos (by omega), decide_eq_false h, if_neg Bool.false_ne_true, Nat.mod_eq_of_lt (not_le.mp h), zero_add]

/-- An internal code is a count of sixteenths in two's complement (R107). -/
theorem intTemp_eq_toInt (k : BitVec 12) : intTemp k = (k.toInt : ℚ) / 16 := by
  rw [intTemp_eq, toInt_eq_signed_magnitude 11 k]
  generalize k.toNat % 2 ^ 11 = m
  split <;> push_cast <;> ring

/-- A probe code is a count of quarters in two's complement (R107). -/
theorem probeTemp_eq_toInt (k : BitVec 14) : probeTemp k = (k.toInt : ℚ) / 4 := by
  rw [probeTemp_eq, toInt_eq_signed_magnitude 13 k]
  generalize k.toNat % 2 ^ 13 = m
  split <;> push_cast <;> ring

/-- An exact conversion with its sign bit set only for a negative rational is not minus zero. -/
theorem ne_negZero_of_value {x : F32} {q : ℚ} (hval : f32Value x = q) (hneg : f32Sign x = true → q < 0) : x ≠ 0x80000000#32 := by
  rintro rfl
  have hzero : f32Value 0x80000000#32 = 0 := by decide +kernel
  have hq := hneg (by decide)
  rw [← hval, hzero] at hq
  exact lt_irrefl _ hq

/-- Settles O31: two's complement, the exact conversions of both temperatures, and their signs. -/
theorem codesConvertExactly : Obligations.CodesConvertExactly := by
  refine ⟨fun k => ?_, fun k => ?_⟩
  · obtain ⟨hfin, hval, hneg⟩ := f32Exact_intTemp k
    exact ⟨intTemp_eq_toInt k, hfin, hval, ne_negZero_of_value hval hneg⟩
  · obtain ⟨hfin, hval, hneg⟩ := f32Exact_probeTemp k
    exact ⟨probeTemp_eq_toInt k, hfin, hval, ne_negZero_of_value hval hneg⟩

/-- The bits of an encoded frame: status from bit 0, internal code from bit 4, probe code from bit 18, zeros between (R109). -/
theorem encodeFrame_getLsbD (stat : BitVec 3) (i p : ℤ) (k : ℕ) (hk : k < 32) :
    (encodeFrame stat i p).getLsbD k =
      ((18 ≤ k && (BitVec.ofInt 14 p).getLsbD (k - 18)) || (4 ≤ k && (BitVec.ofInt 12 i).getLsbD (k - 4)) || stat.getLsbD k) := by
  simp only [encodeFrame, BitVec.getLsbD_or, BitVec.getLsbD_shiftLeft, BitVec.getLsbD_setWidth, hk]
  simp [show k - 18 < 32 by omega, show k - 4 < 32 by omega, ← decide_not]

/-- An encoded frame carries its status. -/
theorem frameStat_encodeFrame (stat : BitVec 3) (i p : ℤ) : frameStat (encodeFrame stat i p) = stat := by
  apply BitVec.eq_of_getLsbD_eq
  intro k hk
  rw [frameStat, BitVec.getLsbD_extractLsb', encodeFrame_getLsbD _ _ _ _ (by omega)]
  simp [hk, show ¬ 18 ≤ k by omega, show ¬ 4 ≤ k by omega]

/-- An encoded frame carries its internal code. -/
theorem frameIntCode_encodeFrame (stat : BitVec 3) (i p : ℤ) : frameIntCode (encodeFrame stat i p) = BitVec.ofInt 12 i := by
  apply BitVec.eq_of_getLsbD_eq
  intro k hk
  rw [frameIntCode, BitVec.getLsbD_extractLsb', encodeFrame_getLsbD _ _ _ _ (by omega),
    BitVec.getLsbD_of_ge stat (4 + k) (by omega)]
  simp [hk, show ¬ 18 ≤ 4 + k by omega]

/-- An encoded frame carries its probe code. -/
theorem frameProbeCode_encodeFrame (stat : BitVec 3) (i p : ℤ) : frameProbeCode (encodeFrame stat i p) = BitVec.ofInt 14 p := by
  apply BitVec.eq_of_getLsbD_eq
  intro k hk
  rw [frameProbeCode, BitVec.getLsbD_extractLsb', encodeFrame_getLsbD _ _ _ _ (by omega),
    BitVec.getLsbD_of_ge stat (18 + k) (by omega), BitVec.getLsbD_of_ge _ (18 + k - 4) (by omega)]
  simp [hk]

/-- Bit 16 of an encoded frame is clear, so it is not the sentinel. -/
theorem encodeFrame_ne_sentinel (stat : BitVec 3) (i p : ℤ) : encodeFrame stat i p ≠ Config.sentinel := by
  intro h
  have hbit := encodeFrame_getLsbD stat i p 16 (by decide)
  rw [h, BitVec.getLsbD_of_ge _ (16 - 4) (by decide), BitVec.getLsbD_of_ge stat 16 (by decide)] at hbit
  simp [Config.sentinel] at hbit

/-- Settles O29: DECODE takes the three fields out of the frame, and the codes are two's complement. -/
theorem frameRoundTrip : Obligations.FrameRoundTrip := by
  intro stat i p hi hi' hp hp' s
  have hne := encodeFrame_ne_sentinel stat i p
  have hint : (BitVec.ofInt 12 i).toInt = i := BitVec.toInt_ofInt_eq_self (by omega) (by omega) (by omega)
  have hprobe : (BitVec.ofInt 14 p).toInt = p := BitVec.toInt_ofInt_eq_self (by omega) (by omega) (by omega)
  rw [decodeFrame_eq, if_neg hne, frameStat_encodeFrame, frameIntCode_encodeFrame, frameProbeCode_encodeFrame]
  exact ⟨hne, rfl, by rw [intTemp_eq_toInt, hint], by rw [probeTemp_eq_toInt, hprobe]⟩

end Sys2Proof.Machine
end

section
/-! READ (44_reader_commands.md R163 to R165), its failure with and without a pull-up (R177; 70_reset_and_hazards.md R227), and a
reading that equals `NO_TEMPERATURE` (R180). -/

namespace Sys2Proof.Machine

/-- Away from the sentinel, DECODE leaves the transfer's state with every cached field written (41_frame_decoder.md R102, R108). -/
theorem readFrame_of_ne_sentinel (s : State) (h : transferFrame s ≠ Config.sentinel) :
    readFrame s = { afterTransfer s with
      status := (frameStat (transferFrame s)).setWidth 8, intCode := frameIntCode (transferFrame s)
      probeCode := frameProbeCode (transferFrame s), hasData := true, lastReadTs := (afterTransfer s).nowAnswer
      nowAnswers := s.nowAnswers.tail, draws := (afterTransfer s).draws + 1 } := by
  rw [readFrame_eq, decodeFrame_eq, if_neg h]
  rfl

/-- The response of a READ of any other frame than the sentinel: its three status bits (R163). -/
theorem statusWord_setWidth (stat : BitVec 3) : statusWord (stat.setWidth 8) = stat.setWidth 32 := by
  have hlt := stat.isLt
  apply BitVec.eq_of_toNat_eq
  simp only [statusWord, BitVec.toNat_setWidth]
  omega

/-- Settles O32: the word, the refusals, and the two cases of the decoded frame. -/
theorem readTransfersAndDecodes : Obligations.ReadTransfersAndDecodes := by
  refine ⟨fun c => decode_eq_ok_iff c .read, othersReserved_of_mem ⟨.read, _, _⟩ (by decide), exec_read_of_uninit,
    fun s hl hw => ?_, fun s w hl hw hne => ?_⟩
  · rw [exec_read_of_configured s hl, readFrame_of_sentinel s hw]
    rfl
  · subst hw
    rw [exec_read_of_configured s hl, readFrame_of_ne_sentinel s hne, statusWord_setWidth]
    rfl

/-- The answers of GETPT, GETIT and GETTS do not look at `STATUS`, and a sentinel READ writes no other register that they do. -/
theorem stale_answers (s : State) (h : transferFrame s = Config.sentinel) (w : Word) :
    probeReading ((readFrame s).respond w) = probeReading s ∧ internalReading ((readFrame s).respond w) = internalReading s ∧
      ((readFrame s).respond w).lastReadTs = s.lastReadTs := by
  rw [readFrame_of_sentinel s h]
  exact ⟨rfl, rfl, rfl⟩

/-- Settles O34: the three answers before the READ are those after it. -/
theorem staleAnswersSurviveAFailure : Obligations.StaleAnswersSurviveAFailure := by
  intro s hl hw
  obtain ⟨hp, hi, hts⟩ := stale_answers s hw (statusWord (readFrame s).status)
  refine ⟨_, s.lastReadTs, probeReading s, internalReading s, exec_read_of_configured s hl, ?_, rfl, exec_getpt _ hp, rfl,
    exec_getit _ hi, rfl, exec_getts _ hts⟩
  rw [readFrame_of_sentinel s hw]
  rfl

/-- A transfer whose line is pulled up and never driven reads the sentinel (70_reset_and_hazards.md R227). -/
theorem transferFrame_of_silent (drives : SensorDrives) (s : State) (hup : PulledUp drives s) (hsilent : SensorSilent drives s) :
    transferFrame s = Config.sentinel := by
  cases ht : s.transport with
  | accel =>
    simp only [PulledUp, SensorSilent, ht] at hup hsilent
    have hbyte (k : ℕ) (hk : k < 4) : s.busAnswerAt k = 0xFF#8 := by
      apply BitVec.eq_of_getLsbD_eq
      intro i hi
      rw [hup k hk i hi (hsilent k hk i hi)]
      exact (BitVec.getLsbD_allOnes.trans (decide_eq_true hi)).symm
    simp only [transferFrame, ht, accelFrame, hbyte 0 (by decide), hbyte 1 (by decide), hbyte 2 (by decide), hbyte 3 (by decide)]
    rfl
  | bitclk =>
    simp only [PulledUp, SensorSilent, ht] at hup hsilent
    apply BitVec.eq_of_getLsbD_eq
    intro i hi
    obtain ⟨k, hk, rfl⟩ : ∃ k, k < 32 ∧ i = 31 - k := ⟨31 - i, by omega, by omega⟩
    have hones : Config.sentinel.getLsbD (31 - k) = true := BitVec.getLsbD_allOnes.trans (decide_eq_true hi)
    simp only [transferFrame, ht]
    rw [clockedFrame_getLsbD s k hk, hup k hk (hsilent k hk), hones]
    rfl

/-- Settles O35: the pull-up of the run holds for this READ, whose frame is then the sentinel. -/
theorem pulledUpDisconnectionIsDetected : Obligations.PulledUpDisconnectionIsDetected := by
  intro drives s n hup hread hsilent
  have hw := transferFrame_of_silent drives _ (hup n hread) hsilent
  obtain ⟨rest, hl, -, hstep⟩ := nextIsRead_step _ hread
  obtain ⟨t, ht, hresp, hst, -⟩ := sentinelReadIsNotFatal { hostRun n s with hostQueue := rest } hl hw
  exact ⟨t, hstep.trans ht, hst, hresp⟩

/-- Settles O44: probe code 0x3064 is -999, which the fast path with offset +0.0 returns; GETST's bit 8 is `HAS_DATA`. -/
theorem noTemperatureIsAlsoAReading : Obligations.NoTemperatureIsAlsoAReading := by
  intro s hd hcode hoff hn
  have hreading : probeReading s = Config.noTemperature := by
    rw [probeReading_of_native s hd hn, fastPath, hcode, hoff]
    decide +kernel
  refine ⟨exec_getpt s hreading, exec_getpt _ (probeReading_of_noData _ rfl), _, _, rfl, rfl, ?_, ?_⟩
  · rw [statusReport_getLsbD, hd]
    rfl
  · rw [statusReport_getLsbD]
    rfl

end Sys2Proof.Machine
end

section
/-! The refusal mark along a run (60_exceptions.md R203; 70_reset_and_hazards.md R235). -/

namespace Sys2Proof.Machine

/-- No step writes the refusal mark: a reset keeps it, and no command touches it. -/
theorem step_next_refusalMark (s t : State) (h : step s = .next t) : t.refusalMark = s.refusalMark := by
  obtain ⟨-, rfl⟩ | ⟨rest, -, rfl⟩ | ⟨c, rest, i, -, -, he⟩ := step_next_cases s t h
  · rfl
  · rfl
  · exact (exec_next_params i _ t he).2

/-- Settles O55: a step keeps the mark, and a refusal keeps the first one. -/
theorem refusalMarkIsKept : Obligations.RefusalMarkIsKept := by
  intro n s r h
  refine hostRun_induction (P := fun s => s.refusalMark = some r) (fun s t hs hst => ?_) (fun s r' hs => ?_) n s h
  · rw [step_next_refusalMark s t hst, hs]
  · rw [afterRefusal, hs, Option.getD_some]

/-- Where the first step answers a next state, the machine's run goes on from it. -/
theorem core_run_of_next {s t : State} (n : ℕ) (h : step s = .next t) : Host.Core.run core (n + 1) s = Host.Core.run core n t := by
  have hcore : core.step s = .next t := h
  simp only [Host.Core.run, hcore]

/-- Where the first step is refused, so is the machine's run. -/
theorem core_run_of_refused {s : State} {r : Refusal} (n : ℕ) (h : step s = .refused r) :
    Host.Core.run core (n + 1) s = .refused r := by
  have hcore : core.step s = .refused r := h
  simp only [Host.Core.run, hcore]

/-- Settles O56: a step leaves the run unmarked and both runs go on from it; a refusal ends the one and marks the other. -/
theorem unmarkedRunsAreTheRunsOfTheMachine : Obligations.UnmarkedRunsAreTheRunsOfTheMachine := by
  intro n
  induction n with
  | zero => exact fun s hs => iff_of_true hs rfl
  | succ n ih =>
    intro s hs
    cases hstep : step s with
    | next t =>
      rw [hostRun, hostStep_of_next s t hstep, core_run_of_next n hstep]
      exact ih t ((step_next_refusalMark s t hstep).trans hs)
    | refused r =>
      have hmark : (hostStep s).refusalMark = some (s.refusalMark.getD r) := by rw [hostStep_of_refused s r hstep, afterRefusal]
      have hkept := refusalMarkIsKept n _ _ hmark
      rw [core_run_of_refused n hstep, hostRun]
      exact iff_of_false (fun hclear => nomatch hclear.symm.trans hkept) nofun
    | fault f => exact nomatch f

end Sys2Proof.Machine
end

section
/-! The events of an interaction: how many there are (70_reset_and_hazards.md R232), and whose pins they touch (R230). -/

namespace Sys2Proof.Machine

/-- The new events of a host interaction are those of an accepted command, or none: for an idle step, a reset, and a refusal. -/
theorem hostStep_events (s : State) :
    (hostStep s).trace.drop s.trace.length = [] ∨
      ∃ i rest, exec i { s with hostQueue := rest } = .next (hostStep s) ∧
        (hostStep s).trace.drop s.trace.length = commandEvents i { s with hostQueue := rest } := by
  cases hstep : step s with
  | refused r =>
    rw [hostStep_of_refused s r hstep]
    exact .inl List.drop_length
  | next t =>
    rw [hostStep_of_next s t hstep]
    obtain ⟨-, rfl⟩ | ⟨rest, -, rfl⟩ | ⟨c, rest, i, -, -, he⟩ := step_next_cases s t hstep
    · exact .inl List.drop_length
    · exact .inl List.drop_nil
    · refine .inr ⟨i, rest, he, ?_⟩
      rw [exec_next_trace i _ t he, List.drop_left]
  | fault f => exact nomatch f

/-- A bit-clocked transfer has 98 to 162 events (43_bitclocked_transport.md R140). -/
theorem clockedEvents_length_bounds (s : State) : 98 ≤ (clockedEvents s).length ∧ (clockedEvents s).length ≤ 162 := by
  rw [clockedEvents_length]
  split_ifs <;> omega

/-- The transfer of a READ has 8 events under `ACCEL`, 98 to 162 under `BITCLK` (R232). -/
theorem transferEvents_length (s : State) :
    (transferEvents s).length = 8 ∧ s.transport = .accel ∨
      98 ≤ (transferEvents s).length ∧ (transferEvents s).length ≤ 162 ∧ s.transport = .bitclk := by
  cases ht : s.transport with
  | accel => exact .inl ⟨by simp [transferEvents, ht, accelEvents], rfl⟩
  | bitclk =>
    obtain ⟨hlo, hhi⟩ := clockedEvents_length_bounds s
    exact .inr ⟨by simpa [transferEvents, ht] using hlo, by simpa [transferEvents, ht] using hhi, rfl⟩

/-- No command has more than 162 events. -/
theorem commandEvents_length_le (i : Instr) (s : State) : (commandEvents i s).length ≤ 162 := by
  cases i with
  | read =>
    have hlen := transferEvents_length s
    simp only [commandEvents]
    omega
  | initA | initB | getpt | getit | getst | getts | setofs | setsbk | setfrq | setdly => simp [commandEvents]

/-- An interaction has at most 162 events and one timestamp. -/
theorem primitives_length_le (s : State) : (primitives s).length ≤ 163 := by
  have hevents : ((hostStep s).trace.drop s.trace.length).length ≤ 162 := by
    obtain hnone | ⟨i, rest, -, hev⟩ := hostStep_events s
    · simp [hnone]
    · exact hev ▸ commandEvents_length_le i _
  rw [primitives, List.length_append, List.length_map]
  split
  · exact Nat.add_le_add_right hevents 1
  · exact Nat.le_succ_of_le hevents

/-- A primitive that does not return is the last one issued. -/
theorem issued_length_le (returns : ℕ → Bool) (k : ℕ) (l : List Primitive) (i : ℕ) (p : Primitive) (hi : l[i]? = some p)
    (hwaits : p.waits = true) (hret : returns (k + i) = false) : (issued returns k l).length ≤ i + 1 := by
  induction l generalizing k i with
  | nil => exact Nat.zero_le _
  | cons q rest ih =>
    rw [issued]
    split
    · exact Nat.le_add_left 1 i
    · next hgo =>
      cases i with
      | zero =>
        obtain rfl : q = p := by simpa using hi
        simp [hwaits, show returns k = false from hret] at hgo
      | succ i =>
        have := ih (k + 1) i (by simpa using hi) (by rw [← hret]; congr 1; omega)
        simpa using this

/-- Settles O51: the events of each command counted, and `issued` on lists that do and do not return. -/
theorem eventsPerCommandAreBounded : Obligations.EventsPerCommandAreBounded := by
  refine ⟨fun i s t h => ⟨commandEvents i s, exec_next_trace i s t h, ?_⟩, fun returns s n hret => ⟨?_, primitives_length_le _⟩,
    fun returns s i p hi hwaits hret => ?_⟩
  · cases i with
    | read => exact transferEvents_length s
    | initA | initB | getpt | getit | getst | getts | setofs | setsbk | setfrq | setdly => rfl
  · refine issued_eq_self _ 0 _ fun j p hj hwaits => ?_
    rw [Nat.zero_add]
    exact hret n j p hj hwaits
  · exact issued_length_le returns 0 _ i p hi hwaits (by rwa [Nat.zero_add])

/-- A half-delay touches no pin. -/
theorem pin_of_mem_delayEvents {e : Event} {n : BitVec 16} (h : e ∈ delayEvents n) : e.pin = none := by
  unfold delayEvents at h
  split at h
  · simp at h
  · obtain rfl := List.mem_singleton.mp h
    rfl

/-- A bit group touches the clock and the data pin only (43_bitclocked_transport.md R142). -/
theorem pin_of_mem_bitGroup {clk data : PinId} {d : BitVec 16} {b : BitVec 1} {e : Event} {p : PinId}
    (h : e ∈ bitGroup clk data d b) (hp : e.pin = some p) : p = clk ∨ p = data := by
  have hdelay {n : BitVec 16} (hn : e ∈ delayEvents n) : False := by simp [pin_of_mem_delayEvents hn] at hp
  simp only [bitGroup, List.mem_cons, List.mem_append] at h
  obtain rfl | hlow | rfl | rfl | hhigh := h
  · exact .inl (Option.some.inj hp).symm
  · exact (hdelay hlow).elim
  · exact .inr (Option.some.inj hp).symm
  · exact .inl (Option.some.inj hp).symm
  · exact (hdelay hhigh).elim

/-- A bit-clocked transfer touches the three pins only (R140). -/
theorem pin_of_mem_clockedEvents {s : State} {e : Event} {p : PinId} (h : e ∈ clockedEvents s) (hp : e.pin = some p) :
    p ∈ [s.pinCs, s.pinClk, s.pinData] := by
  simp only [clockedEvents, List.mem_cons, List.mem_append, List.mem_flatMap, List.not_mem_nil, or_false] at h ⊢
  obtain rfl | ⟨k, -, hk⟩ | rfl := h
  · exact .inl (Option.some.inj hp).symm
  · exact .inr (pin_of_mem_bitGroup hk hp)
  · exact .inl (Option.some.inj hp).symm

/-- An accelerated transfer touches chip-select only (42_accelerated_transport.md R120). -/
theorem pin_of_mem_accelEvents {s : State} {e : Event} {p : PinId} (h : e ∈ accelEvents s) (hp : e.pin = some p) :
    p ∈ [s.pinCs] := by
  simp only [accelEvents, List.mem_cons, List.not_mem_nil, or_false] at h
  rcases h with rfl | rfl | rfl | rfl | rfl | rfl | rfl | rfl <;> simp_all [Event.pin]

/-- The pins of the transfer of a READ are those that the configured block owns (70_reset_and_hazards.md R230). -/
theorem pin_of_mem_transferEvents {s : State} {e : Event} {p : PinId} (hl : s.lifecycle = .configured)
    (h : e ∈ transferEvents s) (hp : e.pin = some p) : p ∈ s.ownedPins := by
  cases ht : s.transport with
  | accel =>
    rw [transferEvents, ht] at h
    simpa [State.ownedPins, hl, ht] using pin_of_mem_accelEvents h hp
  | bitclk =>
    rw [transferEvents, ht] at h
    simpa [State.ownedPins, hl, ht] using pin_of_mem_clockedEvents h hp

/-- The pins that an accepted command touches belong to the block after it. -/
theorem pin_of_mem_commandEvents {i : Instr} {s t : State} (he : exec i s = .next t) {e : Event} {p : PinId}
    (h : e ∈ commandEvents i s) (hp : e.pin = some p) : p ∈ t.ownedPins := by
  obtain ⟨cs, bus, rfl, -, rfl⟩ | ⟨cs, clk, data, rfl, -, -, rfl⟩ | ⟨rfl, hl, -⟩ | ⟨-, hev, -⟩ := exec_next_cases i s t he
  · simp only [commandEvents, List.mem_cons, List.not_mem_nil, or_false] at h
    rcases h with rfl | rfl | rfl <;> simp_all [Event.pin, State.ownedPins]
  · simp only [commandEvents, List.mem_cons, List.not_mem_nil, or_false] at h
    rcases h with rfl | rfl | rfl | rfl | rfl <;> simp_all [Event.pin, State.ownedPins]
  · obtain ⟨hl', htr, hcs, hclk, hdata, -⟩ := exec_next_configuration .read s t hl he
    have howned : t.ownedPins = s.ownedPins := by simp [State.ownedPins, hl, hl', htr, hcs, hclk, hdata]
    exact howned ▸ pin_of_mem_transferEvents hl h hp
  · simp [hev] at h

/-- The pins that a host interaction touches belong to the block after it. -/
theorem pin_of_mem_hostStep_events {s : State} {e : Event} {p : PinId} (h : e ∈ (hostStep s).trace.drop s.trace.length)
    (hp : e.pin = some p) : p ∈ (hostStep s).ownedPins := by
  obtain hnone | ⟨i, rest, he, hev⟩ := hostStep_events s
  · simp [hnone] at h
  · exact pin_of_mem_commandEvents he (hev ▸ h) hp

/-- Settles O57: a step is `hostStep` of its block in a list exclusive before and after; the pins it touches are its own after. -/
theorem blocksAreIndependent : Obligations.BlocksAreIndependent := by
  refine ⟨fun blocks next k h => ?_, fun blocks k h h' => ⟨_, (stepBlock_eq_some ..).mpr ⟨h, h', rfl⟩⟩,
    fun blocks next j k a b h hjk ha hb e he p hp => ?_, fun blocks j k m a b p hjk ha hb hpa hpb => ?_⟩
  · obtain ⟨-, hnext, rfl⟩ := (stepBlock_eq_some blocks next k).mp h
    exact ⟨by simp, fun j hj => by simp [hj.symm], hnext⟩
  · obtain ⟨-, hnext, rfl⟩ := (stepBlock_eq_some blocks next k).mp h
    have hown := pin_of_mem_hostStep_events he hp
    exact (linesExclusive_iff _).mp hnext k j (hostStep a) b p hjk.symm (by simp [ha])
      (by simp [hjk.symm, hb]) hown
  · rw [Option.eq_none_iff_forall_ne_some]
    intro next h
    obtain ⟨hexcl, -, -⟩ := (stepBlock_eq_some blocks next m).mp h
    exact (linesExclusive_iff blocks).mp hexcl j k a b p hjk ha hb hpa hpb

end Sys2Proof.Machine
end

section
/-! Binary32 operands by kind (00_scope.md R9; 93 I-11): what each kind is not, and how its bits are put together. -/

namespace Sys2Proof.Machine

/-- A binary32 is put together from its sign, its exponent and its fraction. -/
theorem f32OfParts_of_fields (x : F32) :
    f32OfParts (f32Sign x) (BitVec.ofNat 31 (f32Exponent x * 2 ^ 23 + f32Fraction x)) = x := by
  have hlt := x.isLt
  have hsign : (f32Sign x).toNat = x.toNat / 2 ^ 31 := by
    rw [f32Sign, BitVec.msb_eq_decide]
    by_cases h : 2 ^ (32 - 1) ≤ x.toNat
    · rw [decide_eq_true h, Bool.toNat_true]
      omega
    · rw [decide_eq_false h, Bool.toNat_false]
      omega
  apply BitVec.eq_of_toNat_eq
  rw [f32OfParts_toNat, hsign, BitVec.toNat_ofNat]
  simp only [f32Exponent, f32Fraction, BitVec.extractLsb'_toNat, Nat.shiftRight_eq_div_pow]
  omega

/-- There is one infinity of each sign. -/
theorem eq_f32Infinity (x : F32) (h : f32IsInf x = true) : x = f32Infinity (f32Sign x) := by
  obtain ⟨hexp, hfrac⟩ : f32Exponent x = 255 ∧ f32Fraction x = 0 := by simpa [f32IsInf] using h
  conv_lhs => rw [← f32OfParts_of_fields x, hexp, hfrac]
  rfl

/-- An infinity is no NaN and no zero. -/
theorem f32_inf_cases (x : F32) (h : f32IsInf x = true) : f32IsNaN x = false ∧ f32IsZero x = false := by
  obtain ⟨hexp, hfrac⟩ : f32Exponent x = 255 ∧ f32Fraction x = 0 := by simpa [f32IsInf] using h
  simp [f32IsNaN, f32IsZero, hexp, hfrac]

/-- A zero is finite. -/
theorem f32_zero_finite (x : F32) (h : f32IsZero x = true) : f32IsFinite x = true := by
  obtain ⟨hexp, -⟩ : f32Exponent x = 0 ∧ f32Fraction x = 0 := by simpa [f32IsZero] using h
  simp [f32IsFinite, hexp]

/-- A zero stands for the rational zero. -/
theorem f32Value_of_isZero (x : F32) (h : f32IsZero x = true) : f32Value x = 0 := by
  obtain ⟨hexp, hfrac⟩ : f32Exponent x = 0 ∧ f32Fraction x = 0 := by simpa [f32IsZero] using h
  simp [f32Value, f32Significand, hexp, hfrac]

/-- The zeros of both signs are zeros. -/
@[simp] theorem f32Zero_isZero (neg : Bool) : f32IsZero (f32Zero neg) = true := by cases neg <;> decide

/-- The infinities of both signs are infinities. -/
@[simp] theorem f32Infinity_isInf (neg : Bool) : f32IsInf (f32Infinity neg) = true := by cases neg <;> decide

/-- Every binary32 is a NaN, an infinity or finite. -/
theorem f32_kinds (x : F32) : f32IsNaN x = true ∨ f32IsInf x = true ∨ f32IsFinite x = true := by
  by_cases hexp : f32Exponent x = 255
  · by_cases hfrac : f32Fraction x = 0
    · exact .inr (.inl (by simp [f32IsInf, hexp, hfrac]))
    · exact .inl (by simp [f32IsNaN, hexp, hfrac])
  · exact .inr (.inr (by simp [f32IsFinite, hexp]))

/-- A quiet NaN is a NaN: its top fraction bit is set. -/
theorem isNaN_of_isQuietNaN {x : F32} (h : IsQuietNaN x) : f32IsNaN x = true := by
  obtain ⟨hexp, hquiet⟩ := h
  have hfrac : f32Fraction x ≠ 0 := by
    intro hzero
    have hbits : x.extractLsb' 0 23 = 0#23 := BitVec.eq_of_toNat_eq hzero
    have hbit := congrArg (fun f => BitVec.getLsbD f 22) hbits
    simp only [BitVec.getLsbD_extractLsb', Nat.zero_add, hquiet] at hbit
    simp at hbit
  simp [f32IsNaN, hexp, hfrac]

/-- Flipping the sign bit flips the sign. -/
theorem f32Sign_f32Neg (x : F32) : f32Sign (f32Neg x) = !f32Sign x := by
  have htop : (0x80000000#32).msb = true := by decide
  rw [f32Sign, f32Neg, BitVec.msb_xor, htop, Bool.xor_true, f32Sign]

/-- Flipping the sign bit of an infinity gives the other infinity. -/
theorem f32Neg_of_isInf (x : F32) (h : f32IsInf x = true) : f32Neg x = f32Infinity (!f32Sign x) := by
  conv_lhs => rw [eq_f32Infinity x h]
  cases f32Sign x <;> decide

end Sys2Proof.Machine
end

section
/-! Binary32 operations on finite operands (00_scope.md R9): the sign of an exact zero. -/

namespace Sys2Proof.Machine

/-- An exact zero rounds to the zero of the sign given. -/
theorem f32Round_zero (neg : Bool) : f32Round neg 0 = f32Zero neg := if_pos rfl

/-- A zero times a finite value is the zero of the sign of the product. -/
theorem f32Mul_zero (a b : F32) (ha : f32IsFinite a = true) (hb : f32IsFinite b = true)
    (h : f32IsZero a = true ∨ f32IsZero b = true) : f32Mul a b = f32Zero (f32Sign a ^^ f32Sign b) := by
  have hprod : f32Value a * f32Value b = 0 := mul_eq_zero.mpr (h.imp (f32Value_of_isZero a) (f32Value_of_isZero b))
  rw [f32Mul_finite a b ha hb, hprod, f32Round_zero]

/-- A zero over a finite value that is none is the zero of the sign of the quotient. -/
theorem f32Div_zero (a b : F32) (ha : f32IsZero a = true) (hb : f32IsFinite b = true) (hz : f32IsZero b = false) :
    f32Div a b = f32Zero (f32Sign a ^^ f32Sign b) := by
  rw [f32Div_finite a b (f32_zero_finite a ha) hb hz, f32Value_of_isZero a ha, zero_div, f32Round_zero]

/-- An exact zero difference is signed as the sum of the first operand and the second one negated. -/
theorem f32Sub_eq_zero (a b : F32) (ha : f32IsFinite a = true) (hb : f32IsFinite b = true) (h : f32Value a - f32Value b = 0) :
    f32Sub a b = f32Zero (f32Sign a && !f32Sign b) := by
  rw [f32Sub_finite a b ha hb, h, f32Round_zero, f32Sign_f32Neg]

/-- A zero plus the conversion of a rational that a binary32 equals is that conversion: it is never minus zero. -/
theorem f32Add_zero_f32Exact (z : F32) (q : ℚ) (hz : f32IsZero z = true) (hfin : f32IsFinite (f32Exact q) = true)
    (hval : f32Value (f32Exact q) = q) : f32Add z (f32Exact q) = f32Exact q := by
  rw [f32Add_finite z _ (f32_zero_finite z hz) hfin, f32Value_of_isZero z hz, zero_add, hval]
  rcases eq_or_ne q 0 with rfl | hq
  · have hsign : f32Sign (f32Exact 0) = false := by decide
    rw [hsign, Bool.and_false, f32Exact]
  · rw [f32Exact, f32Round_eq _ q hq, f32Round_eq _ q hq]

/-- Settles O58: each operation is one rounding of the exact result, which `f32Round_roundedTo` describes. -/
theorem binary32OperationsRoundOnce : Obligations.Binary32OperationsRoundOnce := by
  refine ⟨fun a b ha hb => ⟨f32Add_roundedTo a b ha hb, ?_, ?_, fun hz => ?_, fun h => ?_, f32Sub_eq_zero a b ha hb,
    f32Mul_zero a b ha hb, fun hza hz => f32Div_zero a b hza hb hz⟩, fun a b => ?_, fun q x hx hq => ?_⟩
  · rw [f32Sub_finite a b ha hb]
    exact f32Round_roundedTo _ _
  · rw [f32Mul_finite a b ha hb]
    exact f32Round_roundedTo _ _
  · rw [f32Div_finite a b ha hb hz]
    exact f32Round_roundedTo _ _
  · rw [f32Add_finite a b ha hb, h, f32Round_zero]
  · simp [f32Eq, and_assoc]
  · rw [f32Exact, ← hq, f32Round_f32Value false x hx]

/-- Settles O59: a value that is no zero is IEEE-equal only to its own bit pattern, and one that is no NaN is equal to it. -/
theorem fastPathTestIsBitEquality : Obligations.FastPathTestIsBitEquality := by
  intro s hnan hzero
  constructor
  · intro h
    obtain ⟨-, heq⟩ : f32IsNaN s.seebeck = false ∧ s.seebeck = s.params.nativeSeebeck := by
      simpa [f32Eq, hnan, hzero] using h
    exact heq
  · intro h
    rw [h]
    exact f32Eq_self _ hnan

end Sys2Proof.Machine
end

section
/-! Binary32 operations on NaN and infinite operands and on zero divisors (00_scope.md R9; 93 I-11). -/

namespace Sys2Proof.Machine

/-- The NaN that an operation gives is quiet. -/
theorem f32NaN_isQuietNaN (op : F32Op) (a b : F32) : IsQuietNaN (f32NaN op a b) := f32QuietNaN_isQuietNaN _

/-- A NaN operand gives a quiet NaN under each operation. -/
theorem isQuietNaN_of_isNaN (a b : F32) (h : f32IsNaN a = true ∨ f32IsNaN b = true) :
    IsQuietNaN (f32Add a b) ∧ IsQuietNaN (f32Sub a b) ∧ IsQuietNaN (f32Mul a b) ∧ IsQuietNaN (f32Div a b) := by
  have hnan : (f32IsNaN a || f32IsNaN b) = true := by simpa using h
  simp [f32Add, f32Sub, f32Mul, f32Div, hnan, f32NaN_isQuietNaN]

/-! Two infinities. -/

/-- Infinities of one sign add up to themselves. -/
theorem f32Add_inf_inf_of_sign_eq (a b : F32) (ha : f32IsInf a = true) (hb : f32IsInf b = true) (h : f32Sign a = f32Sign b) :
    f32Add a b = a := by
  simp [f32Add, f32Sum, ha, f32_inf_cases a ha, f32_inf_cases b hb, h]

/-- Infinities of opposite signs cancel to a quiet NaN. -/
theorem f32Add_inf_inf_of_sign_ne (a b : F32) (ha : f32IsInf a = true) (hb : f32IsInf b = true) (h : f32Sign a ≠ f32Sign b) :
    IsQuietNaN (f32Add a b) := by
  simp [f32Add, ha, hb, h, f32NaN_isQuietNaN]

/-- An infinity less the one of its own sign is a quiet NaN. -/
theorem f32Sub_inf_inf_of_sign_eq (a b : F32) (ha : f32IsInf a = true) (hb : f32IsInf b = true) (h : f32Sign a = f32Sign b) :
    IsQuietNaN (f32Sub a b) := by
  simp [f32Sub, ha, hb, h, f32NaN_isQuietNaN]

/-- An infinity less the one of the other sign is itself. -/
theorem f32Sub_inf_inf_of_sign_ne (a b : F32) (ha : f32IsInf a = true) (hb : f32IsInf b = true) (h : f32Sign a ≠ f32Sign b) :
    f32Sub a b = a := by
  simp [f32Sub, f32Sum, ha, f32_inf_cases a ha, f32_inf_cases b hb, h]

/-- A product of infinities is the infinity of the sign of the product. -/
theorem f32Mul_inf_inf (a b : F32) (ha : f32IsInf a = true) (hb : f32IsInf b = true) :
    f32Mul a b = f32Infinity (f32Sign a ^^ f32Sign b) := by
  simp [f32Mul, ha, f32_inf_cases a ha, f32_inf_cases b hb]

/-- A quotient of infinities is a quiet NaN. -/
theorem f32Div_inf_inf (a b : F32) (ha : f32IsInf a = true) (hb : f32IsInf b = true) : IsQuietNaN (f32Div a b) := by
  simp [f32Div, ha, hb, f32NaN_isQuietNaN]

/-! An infinity and a finite value. -/

/-- An infinity plus a finite value is that infinity. -/
theorem f32Add_inf_finite (a b : F32) (ha : f32IsInf a = true) (hb : f32IsFinite b = true) : f32Add a b = a := by
  simp [f32Add, f32Sum, ha, f32_inf_cases a ha, f32_finite_cases b hb]

/-- An infinity less a finite value is that infinity. -/
theorem f32Sub_inf_finite (a b : F32) (ha : f32IsInf a = true) (hb : f32IsFinite b = true) : f32Sub a b = a := by
  simp [f32Sub, f32Sum, ha, f32_inf_cases a ha, f32_finite_cases b hb]

/-- A finite value less an infinity is the other infinity. -/
theorem f32Sub_finite_inf (a b : F32) (ha : f32IsFinite a = true) (hb : f32IsInf b = true) :
    f32Sub a b = f32Infinity (!f32Sign b) := by
  simp [f32Sub, f32Sum, f32_finite_cases a ha, f32_inf_cases b hb, f32Neg_of_isInf b hb]

/-- An infinity over a finite value is the infinity of the sign of the quotient. -/
theorem f32Div_inf_finite (a b : F32) (ha : f32IsInf a = true) (hb : f32IsFinite b = true) :
    f32Div a b = f32Infinity (f32Sign a ^^ f32Sign b) := by
  simp [f32Div, ha, f32_inf_cases a ha, f32_finite_cases b hb]

/-- A finite value over an infinity is the zero of the sign of the quotient. -/
theorem f32Div_finite_inf (a b : F32) (ha : f32IsFinite a = true) (hb : f32IsInf b = true) :
    f32Div a b = f32Zero (f32Sign a ^^ f32Sign b) := by
  simp [f32Div, hb, f32_finite_cases a ha, f32_inf_cases b hb]

/-- An infinity times a zero is a quiet NaN, in either order. -/
theorem f32Mul_inf_zero (a b : F32) (ha : f32IsInf a = true) (hb : f32IsZero b = true) :
    IsQuietNaN (f32Mul a b) ∧ IsQuietNaN (f32Mul b a) := by
  simp [f32Mul, ha, hb, f32NaN_isQuietNaN]

/-- An infinity times a finite value that is no zero is the infinity of the sign of the product, in either order. -/
theorem f32Mul_inf_finite (a b : F32) (ha : f32IsInf a = true) (hb : f32IsFinite b = true) (hz : f32IsZero b = false) :
    f32Mul a b = f32Infinity (f32Sign a ^^ f32Sign b) ∧ f32Mul b a = f32Infinity (f32Sign b ^^ f32Sign a) := by
  simp [f32Mul, ha, hz, f32_inf_cases a ha, f32_finite_cases b hb]

/-! Zero divisors. -/

/-- Zero over zero is a quiet NaN. -/
theorem f32Div_zero_zero (a b : F32) (ha : f32IsZero a = true) (hb : f32IsZero b = true) : IsQuietNaN (f32Div a b) := by
  simp [f32Div, ha, hb, f32NaN_isQuietNaN]

/-- Any other value that is no NaN, over zero, is the infinity of the sign of the quotient (44_reader_commands.md R168). -/
theorem f32Div_by_zero (a b : F32) (hn : f32IsNaN a = false) (hz : f32IsZero a = false) (hb : f32IsZero b = true) :
    f32Div a b = f32Infinity (f32Sign a ^^ f32Sign b) := by
  simp [f32Div, hn, hz, hb, f32_finite_cases b (f32_zero_finite b hb)]

/-- Settles O60: NaN operands, two infinities, an infinity and a finite value, a zero divisor. -/
theorem binary32SpecialOperands : Obligations.Binary32SpecialOperands := by
  refine ⟨isQuietNaN_of_isNaN, fun a b ha hb => ⟨?_, f32Mul_inf_inf a b ha hb, f32Div_inf_inf a b ha hb⟩,
    fun a b ha hb => ⟨f32Add_inf_finite a b ha hb, f32Add_inf b a hb ha, f32Sub_inf_finite a b ha hb,
      f32Sub_finite_inf b a hb ha, f32Div_inf_finite a b ha hb, f32Div_finite_inf b a hb ha, ?_⟩, fun a b ha hb => ?_⟩
  · split
    · next h => exact ⟨f32Add_inf_inf_of_sign_eq a b ha hb h, f32Sub_inf_inf_of_sign_eq a b ha hb h⟩
    · next h => exact ⟨f32Add_inf_inf_of_sign_ne a b ha hb h, f32Sub_inf_inf_of_sign_ne a b ha hb h⟩
  · split
    · next hz => exact f32Mul_inf_zero a b ha hz
    · next hz => exact f32Mul_inf_finite a b ha hb (Bool.eq_false_iff.mpr hz)
  · split
    · next hz => exact f32Div_zero_zero a b hz hb
    · next hz => exact f32Div_by_zero a b (f32_finite_cases a ha).1 (Bool.eq_false_iff.mpr hz) hb

end Sys2Proof.Machine
end

section
/-! The corners of the slow path (44_reader_commands.md R168). -/

namespace Sys2Proof.Machine

/-- An infinite addend gives itself, or a quiet NaN where the other one is a NaN or the other infinity. -/
theorem f32Add_inf_right_cases (a b : F32) (hb : f32IsInf b = true) : f32Add a b = b ∨ IsQuietNaN (f32Add a b) := by
  obtain hnan | hinf | hfin := f32_kinds a
  · exact .inr (isQuietNaN_of_isNaN a b (.inl hnan)).1
  · by_cases hsign : f32Sign a = f32Sign b
    · left
      rw [f32Add_inf_inf_of_sign_eq a b hinf hb hsign, eq_f32Infinity a hinf, hsign, ← eq_f32Infinity b hb]
    · exact .inr (f32Add_inf_inf_of_sign_ne a b hinf hb hsign)
  · exact .inl (f32Add_inf a b hfin hb)

/-- A quiet NaN carries through both additions of the slow path. -/
theorem isQuietNaN_add_add {x : F32} (hx : IsQuietNaN x) (i o : F32) : IsQuietNaN (f32Add (f32Add x i) o) := by
  have hsum := (isQuietNaN_of_isNaN x i (.inl (isNaN_of_isQuietNaN hx))).1
  exact (isQuietNaN_of_isNaN _ o (.inl (isNaN_of_isQuietNaN hsum))).1

/-- An infinity carries through both additions of the slow path where both addends are finite. -/
theorem f32Infinity_add_add (neg : Bool) (i o : F32) (hi : f32IsFinite i = true) (ho : f32IsFinite o = true) :
    f32Add (f32Add (f32Infinity neg) i) o = f32Infinity neg := by
  rw [f32Add_inf_finite _ i (f32Infinity_isInf neg) hi, f32Add_inf_finite _ o (f32Infinity_isInf neg) ho]

/-- A zero quotient leaves the internal temperature as the sum before the offset. -/
theorem f32Zero_add_intTemp (neg : Bool) (k : BitVec 12) : f32Add (f32Zero neg) (f32Exact (intTemp k)) = f32Exact (intTemp k) := by
  obtain ⟨hfin, hval, -⟩ := f32Exact_intTemp k
  exact f32Add_zero_f32Exact _ _ (f32Zero_isZero neg) hfin hval

/-- Settles O38: `v` over the coefficient is a quiet NaN, an infinity or a zero, and each carries through the two additions. -/
theorem slowPathCorners : Obligations.SlowPathCorners := by
  intro s i v t3 hd hi hv ht hn
  have hreading : probeReading s = f32Add t3 s.calOffset := by
    rw [probeReading_of_not_native s hd hn, ht, hv, hi]
    rfl
  obtain ⟨hfin, -, -⟩ := f32Exact_intTemp s.intCode
  rw [hreading]
  refine ⟨f32Add_isQuietNaN_of_isNaN _ _, fun ho hfin3 => f32Add_inf _ _ hfin3 ho, f32Add_inf_right_cases _ _, fun hk => ?_,
    fun hk hvfin => ?_, fun hk hvnan hvz ho => ?_, fun hk hvz => ?_, fun hk hkz hnative htemp => ?_⟩
  · obtain ⟨-, -, -, hquot⟩ := isQuietNaN_of_isNaN v s.seebeck (.inr hk)
    exact ht ▸ isQuietNaN_add_add hquot i s.calOffset
  · rw [ht, f32Div_finite_inf v _ hvfin hk, hi, f32Zero_add_intTemp]
  · rw [ht, f32Div_by_zero v _ hvnan hvz hk, hi, f32Infinity_add_add _ _ _ hfin ho]
  · rw [ht]
    exact isQuietNaN_add_add (f32Div_zero_zero v _ hvz hk) _ _
  · have hdiff : f32IsZero (f32Sub (f32Exact (probeTemp s.probeCode)) i) = true := by
      rw [htemp, hi, f32Sub_eq_zero _ _ hfin hfin (sub_self _), f32Zero_isZero]
    have hvzero : f32IsZero v = true := by
      rw [hv, f32Mul_zero _ _ hnative (f32_zero_finite _ hdiff) (.inr hdiff), f32Zero_isZero]
    rw [ht, f32Div_zero v _ hvzero hk hkz, hi, f32Zero_add_intTemp]

end Sys2Proof.Machine
end
